-- ==== Sys2Proof/Word.lean ====
section
/-! DEFINITION. The words of the block and its two element formats: weights, symbols, node indices (00_scope.md rules
R10 to R14), the element of `NODE` (10_state.md rule R24) and the element of `CODE` (10_state.md rule R26), held as
records of the fields the spec names. The places of the fields in the 63-bit and 135-bit values are in
Machine/Operands.lean. -/
namespace Sys2Proof

/-- An entry of the weight table: `WBITS` = 32 bits, unsigned (00_scope.md rule R11). -/
abbrev Weight := BitVec 32

/-- The weight field of a node: `SWBITS` = 39 bits, wide enough for every sum (00_scope.md rule R12). -/
abbrev SumWeight := BitVec 39

/-- A symbol, 0..127: `SYMBITS` = 7 bits (00_scope.md rule R10). -/
abbrev Symbol := BitVec 7

/-- A child index, `ROOT` or `NODE_COUNT`: 8 bits (10_state.md rules R24, R31, R32). -/
abbrev NodeIdx := BitVec 8

/-- A command word, 8 bits (30_encoding.md rule R80). -/
abbrev CmdWord := BitVec 8

/-- `NULL`, the child index that means "no child" (00_scope.md rule R14). -/
abbrev nullIdx : NodeIdx := 255#8

/-- One element of `NODE` (10_state.md rule R24). The creation sequence is the element's own index. -/
structure Node where
  weight : SumWeight
  sym    : Symbol
  leaf   : Bool
  left   : NodeIdx
  right  : NodeIdx
deriving DecidableEq, Repr, Inhabited

/-- One element of `CODE` (10_state.md rule R26): `bits[k]` is the k-th bit of the code, k = 0 the step at the root. -/
structure Code where
  bits  : BitVec 127
  len   : BitVec 7
  valid : Bool
deriving DecidableEq, Repr

/-- The element of a symbol with no code: `{valid = 0, len = 0, bits = 0}` (10_state.md rule R26). -/
abbrev Code.absent : Code := { bits := 0#127, len := 0#7, valid := false }

/-- `n` elements, `f i`, `f (i + 1)` and so on. -/
def elementsFrom {α : Type} (f : Nat → α) : (n i : Nat) → List α
  | 0, _ => []
  | n + 1, i => f i :: elementsFrom f n (i + 1)

/-- `n` elements with `f i` at index `i`. -/
def elements {α : Type} (n : Nat) (f : Nat → α) : List α := elementsFrom f n 0

@[simp] theorem elementsFrom_length {α : Type} (f : Nat → α) (n i : Nat) : (elementsFrom f n i).length = n := by
  induction n generalizing i with
  | zero => rfl
  | succ n ih => simp [elementsFrom, ih]

@[simp] theorem elements_length {α : Type} (n : Nat) (f : Nat → α) : (elements n f).length = n := elementsFrom_length f n 0

/-- A space of `n` elements with `f i` at index `i`. -/
def tabulate {α : Type} (n : Nat) (f : Nat → α) : Vector α n := ⟨(elements n f).toArray, by simp⟩

end Sys2Proof
end

