-- ==== Sys2Proof/Config.lean ====
section
/-! DEFINITION. The capacity of `BITS`, and the free values: constants with no body, of which no proof can see a value. -/
namespace Sys2Proof

/-- The values the parameter `BITCAP` may have, `127 <= BITCAP <= 65535` (00_scope.md rule R13). -/
abbrev Config.LegalBitcap (bitcap : Nat) : Prop := 127 ≤ bitcap ∧ bitcap ≤ 65535

/-- The value the spec takes for this hardware (00_scope.md rule R13): the argument of `State.atReset` from which
`State.reset` is made, and used nowhere else. Log entry 9. -/
abbrev Config.bitcap : Nat := 1024

/-- The content of `WEIGHT[s]` after reset number `epoch`: unspecified but stable (10_state.md rule R23). FREE VALUE,
log entry 3. DESIGN CHOICE: a function of the two numbers and of nothing else, log entry 21. -/
opaque Config.resetWeight : (epoch s : Nat) → Weight

/-- The content of `NODE[i]` after reset number `epoch`: unspecified but stable (10_state.md rule R24). FREE VALUE, log
entry 3. DESIGN CHOICE: a function of the two numbers and of nothing else, log entry 21. -/
opaque Config.resetNode : (epoch i : Nat) → Node

/-- The content of `BITS[i]` after reset number `epoch`: unspecified but stable (10_state.md rule R27). FREE VALUE, log
entry 3. DESIGN CHOICE: a function of the two numbers and of nothing else, log entry 21. -/
opaque Config.resetBit : (epoch i : Nat) → Bool

/-- What the 8-bit register `DEC_CONSUMED` holds after a DECODE that consumed `k` bits, for a `k` above 255: the spec
states no value (42_decode.md rule R140 writes `DEC_CONSUMED <- k`, and rule R146 bounds `k` only on a well-formed
arena). FREE VALUE, log entry 8. -/
opaque Config.consumedBeyond : (k : Nat) → BitVec 8

end Sys2Proof
end

