-- ==== Sys2Proof/Syntax.lean ====
section
/-! DEFINITION. The abstract syntax: the three commands of spec/opcode_table.json (`Instr`), and what the world outside
can do to the block: the host's reads and writes of the five spaces (`HostAction`, 30_encoding.md rule R87) and the
platform's reset (`Input`, 70_reset_and_hazards.md rule R195). -/
namespace Sys2Proof

/-- A command: one constructor per row of the opcode table (30_encoding.md rule R81). -/
inductive Instr where
  /-- `BUILD min`: the Tree Builder, `min` the `MIN` bit (30_encoding.md rule R82). -/
  | build (min : Bool)
  /-- `ASSIGN`: the Code Assigner. -/
  | assign
  /-- `DECODE`: the Decoder. -/
  | decode
deriving DecidableEq, Repr

/-- The five spaces (20_memory.md rule R60). -/
inductive Space where
  | reg
  | weight
  | node
  | code
  | bits
deriving DecidableEq, Repr

/-- The eight registers of space `REG` (10_state.md rule R28). -/
inductive RegName where
  | cmd
  | status
  | root
  | nodeCount
  | decSymbol
  | decConsumed
  | bitpos
  | bitlen
deriving DecidableEq, Repr

/-- One host access: the space is the constructor, the index and the value its arguments. An index is a number of any
size; one outside its space's range is refused (20_memory.md rule R63). -/
inductive HostAction where
  /-- `WRW s, v` (43_host_access.md rule R150). -/
  | wrw (s : Nat) (v : Weight)
  /-- `RDW s` (rule R151). -/
  | rdw (s : Nat)
  /-- A write to `NODE`, which is ignored (20_memory.md rule R66); the host script has no line for it. -/
  | wrn (i : Nat) (v : BitVec 63)
  /-- `RDN i` (rule R152). -/
  | rdn (i : Nat)
  /-- A write to `CODE`, which is ignored (20_memory.md rule R66); the host script has no line for it. -/
  | wrc (s : Nat) (v : BitVec 135)
  /-- `RDC s` (rule R153). -/
  | rdc (s : Nat)
  /-- `WRB i, b` (rule R154). -/
  | wrb (i : Nat) (b : Bool)
  /-- `RDB i` (rule R155). -/
  | rdb (i : Nat)
  /-- `WRR name, v`, the register by its number (rule R156); a narrower register takes the low bits of `v`. -/
  | wrr (r : Nat) (v : BitVec 16)
  /-- `RDR name`, the register by its number (rule R157). -/
  | rdr (r : Nat)
deriving DecidableEq, Repr

/-- What can happen to the block from outside, one thing at a time (20_memory.md rule R67). -/
inductive Input where
  /-- A host action. -/
  | host (a : HostAction)
  /-- The platform asserts the reset input (70_reset_and_hazards.md rule R195). -/
  | reset
deriving DecidableEq, Repr

/-- The value a host read returns, at the width of what is read (43_host_access.md rules R151 to R157). -/
inductive HostValue where
  | weight (v : Weight)
  | node (v : BitVec 63)
  | code (v : BitVec 135)
  | bit (v : Bool)
  | reg8 (v : BitVec 8)
  | reg16 (v : BitVec 16)
deriving DecidableEq, Repr

end Sys2Proof
end

