-- ==== Sys2Proof/Decode.lean ====
section
/-! DEFINITION. The command word: its decoder, total on all 256 words and rejecting by name, and its encoder
(30_encoding.md rules R80 to R84). -/
namespace Sys2Proof

/-- Why a word is no command (30_encoding.md rule R84). -/
inductive IllegalWord where
  /-- One of the bits [7:3] is set (rule R83). -/
  | reservedBits
  /-- `OP = 0b00`. -/
  | reservedOp
  /-- `MIN = 1` with ASSIGN or DECODE (rule R82). -/
  | minWithoutBuild
deriving DecidableEq, Repr

/-- The field `OP`, bits [1:0] (30_encoding.md rule R80). -/
def opField (w : CmdWord) : BitVec 2 := w.extractLsb 1 0

/-- The field `MIN`, bit [2] (rule R80). -/
def minField (w : CmdWord) : Bool := w.getLsbD 2

/-- The reserved field, bits [7:3] (rule R80). -/
def reservedField (w : CmdWord) : BitVec 5 := w.extractLsb 7 3

/-- The command a word spells, or why it spells none (30_encoding.md rules R81 to R84). -/
def decode (w : CmdWord) : Except IllegalWord Instr :=
  if reservedField w ≠ 0#5 then .error .reservedBits
  else if opField w = 0b00#2 then .error .reservedOp
  else if opField w = 0b01#2 then .ok (.build (minField w))
  else if minField w then .error .minWithoutBuild
  else if opField w = 0b10#2 then .ok .assign
  else .ok .decode

/-- The word of a command (30_encoding.md rule R84): reserved bits, `MIN`, `OP`. -/
def encode : Instr → CmdWord
  | .build min => 0b00000#5 ++ BitVec.ofBool min ++ 0b01#2
  | .assign => 0b00000#5 ++ 0#1 ++ 0b10#2
  | .decode => 0b00000#5 ++ 0#1 ++ 0b11#2

/-- What the decoder reads from an instruction of `nbits` bits with the value `w`. Every command is exactly one 8-bit
word (30_encoding.md rule R80); any other length is no command. Log entry 17. -/
def decodeTableWord (nbits w : Nat) : Option Instr :=
  if nbits = 8 then
    match decode (BitVec.ofNat 8 w) with
    | .ok i => some i
    | .error _ => none
  else none

end Sys2Proof
end

