-- ==== Sys2Proof/Machine/State.lean ====
section
/-! DEFINITION. The state of one instance of the block (10_state.md rule R20), its reasons to stop, and the state after
reset (70_reset_and_hazards.md rule R196). -/
namespace Sys2Proof.Machine

/-- The seven values of `STATUS.CODE` (60_exceptions.md rule R170); its numbers are in Machine/Flags.lean. -/
inductive ResultCode where
  /-- `ST_OK` (R171). -/
  | ok
  /-- `ST_INCOMPLETE` (R172). -/
  | incomplete
  /-- `ST_INVARIANT` (R173). -/
  | invariant
  /-- `ST_ILLEGAL_CMD` (R174). -/
  | illegalCmd
  /-- `ST_NO_TREE` (R175). -/
  | noTree
  /-- `ST_BAD_OPERAND` (R176). -/
  | badOperand
  /-- `ST_FAULTED` (R177). -/
  | faulted
deriving DecidableEq, Repr

/-- Register `STATUS` by its fields (10_state.md rule R30). Bit 7 is hardwired 0 and so is no field; the 8-bit value is
`statusBits` in Machine/Flags.lean. Log entry 15. -/
structure Status where
  code       : ResultCode
  treeValid  : Bool
  codesValid : Bool
  fault      : Bool
deriving DecidableEq, Repr

/-- The whole state. Register `CMD` stores nothing (10_state.md rule R29) and has no field. -/
structure State where
  /-- `WEIGHT[0..127]` (R23). -/
  weight      : Vector Weight 128
  /-- `NODE[0..254]` (R24). -/
  node        : Vector Node 255
  /-- `CODE[0..127]` (R26). -/
  code        : Vector Code 128
  /-- `BITS[0..BITCAP-1]` (R27). Its length is this instance's `BITCAP`, the argument of `State.atReset` (00_scope.md rule
  R13), and no step changes it. Log entry 9. -/
  bits        : List Bool
  /-- `REG.STATUS` (R30). -/
  status      : Status
  /-- `REG.ROOT` (R31). -/
  root        : NodeIdx
  /-- `REG.NODE_COUNT` (R32). -/
  nodeCount   : NodeIdx
  /-- `REG.DEC_SYMBOL` (R33). -/
  decSymbol   : BitVec 8
  /-- `REG.DEC_CONSUMED` (R34). -/
  decConsumed : BitVec 8
  /-- `REG.BITPOS` (R35). -/
  bitpos      : BitVec 16
  /-- `REG.BITLEN` (R36). -/
  bitlen      : BitVec 16
  /-- The model's own: what has been issued and not performed yet, in issue order. Log entry 1. -/
  inbox       : List Input
  /-- The model's own: what the host's reads have returned, oldest first. Log entry 1. -/
  returned    : List HostValue
  /-- The model's own: the number of the reset that gave the present contents. Log entry 3. -/
  resets      : Nat
deriving DecidableEq, Repr

/-- Reasons to stop with a fault: there are none. The block has no state in which nothing can happen, and its one fault,
`ST_INVARIANT`, is a next state that latches `STATUS.FAULT` (60_exceptions.md rules R173, R181). Log entry 20. -/
inductive Fault where
deriving DecidableEq, Repr

/-- Reasons for which the model gives no step. -/
inductive Refusal where
  /-- Raised by exec's arm of a command that has no meaning yet; no arm is left that does. Safe: the model stops. -/
  | notModelled (mnemonic : String)
  /-- Raised by a host access whose index is outside its space's range, which is no legal host action (20_memory.md rule
  R63). Safe: the model stops. Log entry 5. -/
  | badIndex (space : Space) (idx : Nat)
  /-- Raised by ASSIGN on an arena that is not well formed where the walk meets no missing child, which the spec does not
  define (41_assign.md rule R126). Safe: the model stops. Log entry 6. -/
  | assignIllFormed
deriving DecidableEq, Repr

/-- What a step, a command or a host access answers. -/
abbrev Result := Host.Outcome State Fault Refusal

/-- The state of an instance of capacity `bitcap` (00_scope.md rule R13) after reset number `epoch`
(70_reset_and_hazards.md rule R196). `WEIGHT`, `NODE` and `BITS` hold free values that are fixed until written, log entry 3.

DESIGN CHOICE, log entry 21: whether the unwritten elements of two instances (20_memory.md rule R71) agree after reset. The
spec leaves each content arbitrary; here it is a function of `epoch` and the index, so two instances at the same reset
number agree in every unwritten element, and of two at different reset numbers nothing is provable. An instance whose
fresh contents are to be independent of another's starts at a reset number of its own. -/
def State.atReset (bitcap epoch : Nat) : State where
  weight := tabulate 128 (Config.resetWeight epoch)
  node := tabulate 255 (Config.resetNode epoch)
  code := tabulate 128 (fun _ => Code.absent)
  bits := elements bitcap (Config.resetBit epoch)
  status := { code := .ok, treeValid := false, codesValid := false, fault := false }
  root := nullIdx
  nodeCount := 0#8
  decSymbol := 0xFF#8
  decConsumed := 0#8
  bitpos := 0#16
  bitlen := 0#16
  inbox := []
  returned := []
  resets := epoch

/-- The machine right after its first reset, with the spec's capacity: idle, with nothing issued. That two instances which
both start here agree in their unwritten elements is the model's choice, as `State.atReset` says. Log entries 9, 21. -/
def State.reset : State := State.atReset Config.bitcap 0

end Sys2Proof.Machine
end

