-- ==== Sys2Proof/Machine/Flags.lean ====
section
/-! DEFINITION. Register `STATUS` (10_state.md rules R30, R37): its 8-bit value, the result code every command ends with,
and the three flags. -/
namespace Sys2Proof.Machine

/-- The number of a result code, as `STATUS.CODE` holds it (60_exceptions.md rule R170). -/
def resultNumber : ResultCode → BitVec 4
  | .ok => 0#4
  | .incomplete => 1#4
  | .invariant => 2#4
  | .illegalCmd => 3#4
  | .noTree => 4#4
  | .badOperand => 5#4
  | .faulted => 6#4

/-- The 8-bit value of `STATUS`: bit 7 hardwired 0, then `FAULT`, `CODES_VALID`, `TREE_VALID`, `CODE` (10_state.md rule
R30). -/
def statusBits (st : Status) : BitVec 8 :=
  0#1 ++ BitVec.ofBool st.fault ++ BitVec.ofBool st.codesValid ++ BitVec.ofBool st.treeValid ++ resultNumber st.code

/-- `finish(code)`: sets `STATUS.CODE` and ends the command (00_scope.md rule R19). -/
def State.finish (s : State) (c : ResultCode) : State :=
  { s with status := { s.status with code := c } }

/-- `STATUS.TREE_VALID <- 1 ; STATUS.CODES_VALID <- 0`, the flags BUILD writes (40_build.md rule R100). -/
def State.markBuilt (s : State) : State :=
  { s with status := { s.status with treeValid := true, codesValid := false } }

/-- `STATUS.CODES_VALID <- b`, the flag ASSIGN writes (41_assign.md rule R120). -/
def State.markCodes (s : State) (b : Bool) : State :=
  { s with status := { s.status with codesValid := b } }

/-- `STATUS.FAULT <- 1`, the latch (60_exceptions.md rule R181). -/
def State.latchFault (s : State) : State :=
  { s with status := { s.status with fault := true } }

end Sys2Proof.Machine
end

