-- ==== Sys2Proof/Machine/Ops.lean ====
section
/-! DEFINITION. The named operations over the spaces and registers, and taking the block's one fault. -/
namespace Sys2Proof.Machine

/-! ## The spaces -/

/-- How many elements a space of an instance has (20_memory.md rule R60); `BITS` has the instance's `BITCAP` (00_scope.md
rule R13). -/
def spaceSize (s : State) : Space → Nat
  | .reg => 8
  | .weight => 128
  | .node => 255
  | .code => 128
  | .bits => s.bits.length

/-- `WEIGHT[i] <- v` (43_host_access.md rule R150). -/
def State.setWeight (s : State) (i : Nat) (v : Weight) : State :=
  { s with weight := s.weight.setIfInBounds i v }

/-- `BITS[i] <- b` (43_host_access.md rule R154). -/
def State.setBit (s : State) (i : Nat) (b : Bool) : State :=
  { s with bits := s.bits.set i b }

/-- The code table with every element absent (10_state.md rule R26). -/
def emptyCodes : Vector Code 128 := tabulate 128 (fun _ => Code.absent)

/-- `CODE <- t`, the whole table (41_assign.md rule R120). -/
def State.setCodes (s : State) (t : Vector Code 128) : State := { s with code := t }

/-- An arena with its first elements replaced by `l`; elements at and above the length of `l` keep what they hold
(10_state.md rule R25). -/
def overwriteArena (old : Vector Node 255) (l : List Node) : Vector Node 255 :=
  ⟨((l ++ old.toList.drop l.length).take 255).toArray, by simp; omega⟩

/-- A new tree: `NODE[0..]`, `ROOT` and `NODE_COUNT` (40_build.md rule R100). -/
def State.setTree (s : State) (l : List Node) (root : Nat) : State :=
  { s with node := overwriteArena s.node l, root := BitVec.ofNat 8 root, nodeCount := BitVec.ofNat 8 l.length }

/-! ## Canonical form

`CODE` is the one space whose elements have a canonical form: equal codes are equal data. -/

/-- An element of `CODE` in canonical form: no bit of `bits` is set at or above `len`, and an absent element is all zero
(10_state.md rule R26). -/
def codeCanonical (c : Code) : Bool :=
  decide (c.bits.toNat < 2 ^ c.len.toNat) && (c.valid || decide (c = Code.absent))

/-- Every element of `CODE` is in canonical form. -/
def Memory.wf (s : State) : Bool := s.code.toList.all codeCanonical

/-! ## The registers -/

/-- The register with a number (10_state.md rule R28); there is no register 8 or above. -/
def registerOf : Nat → Option RegName
  | 0 => some .cmd
  | 1 => some .status
  | 2 => some .root
  | 3 => some .nodeCount
  | 4 => some .decSymbol
  | 5 => some .decConsumed
  | 6 => some .bitpos
  | 7 => some .bitlen
  | _ => none

/-- The number of a register (10_state.md rule R28). -/
def registerNumber : RegName → Nat
  | .cmd => 0
  | .status => 1
  | .root => 2
  | .nodeCount => 3
  | .decSymbol => 4
  | .decConsumed => 5
  | .bitpos => 6
  | .bitlen => 7

/-- What a host read of a register returns: 0 for `CMD`, else the register at its width (43_host_access.md rule R157). -/
def readRegister (s : State) : RegName → HostValue
  | .cmd => .reg8 0#8
  | .status => .reg8 (statusBits s.status)
  | .root => .reg8 s.root
  | .nodeCount => .reg8 s.nodeCount
  | .decSymbol => .reg8 s.decSymbol
  | .decConsumed => .reg8 s.decConsumed
  | .bitpos => .reg16 s.bitpos
  | .bitlen => .reg16 s.bitlen

/-- `BITPOS <- v` (43_host_access.md rule R156). -/
def State.setBitpos (s : State) (v : BitVec 16) : State := { s with bitpos := v }

/-- `BITLEN <- v` (43_host_access.md rule R156). -/
def State.setBitlen (s : State) (v : BitVec 16) : State := { s with bitlen := v }

/-- `DEC_SYMBOL <- sym ; DEC_CONSUMED <- n` (42_decode.md rule R140). -/
def State.setDecoded (s : State) (sym n : BitVec 8) : State := { s with decSymbol := sym, decConsumed := n }

/-! ## The host's side -/

/-- The value a read returns to the host. -/
def State.give (s : State) (v : HostValue) : State := { s with returned := s.returned ++ [v] }

/-- The issue order with `l` still to be performed. -/
def State.withInbox (s : State) (l : List Input) : State := { s with inbox := l }

/-- The platform's reset: every piece of state takes its value after reset, the contents of `WEIGHT`, `NODE` and `BITS`
anew (70_reset_and_hazards.md rules R195, R196). The capacity is the instance's own (00_scope.md rule R13). What the host
has still to do and what it has read are the host's and stay. Log entry 4. -/
def State.platformReset (s : State) : State :=
  { State.atReset s.bits.length (s.resets + 1) with inbox := s.inbox, returned := s.returned }

/-! ## The fault

There is no handler, no saved state and no transfer of control, so entry is the latch and the code (60_exceptions.md rule
R181); and there is no return from it: only reset clears the latch (R182). -/

/-- `raise Fault(ST_INVARIANT)` (00_scope.md rule R19, 60_exceptions.md rule R181). -/
def State.raiseInvariant (s : State) : State := s.latchFault.finish .invariant

/-- While `STATUS.FAULT` is 1 every command word ends with `ST_FAULTED` and changes nothing else (60_exceptions.md rule
R177); this check comes before every other (30_encoding.md rule R85). Log entry 11. -/
def unlessFaulted (s : State) (k : Result) : Result :=
  if s.status.fault then .next (s.finish .faulted) else k

/-- An illegal word runs no unit and writes only `STATUS.CODE` (60_exceptions.md rule R174). -/
def illegalCommand (s : State) : Result := unlessFaulted s (.next (s.finish .illegalCmd))

end Sys2Proof.Machine
end

