-- ==== Sys2Proof/Machine/Operands.lean ====
section
/-! DEFINITION. Operands and element layouts: the 63-bit value of a node (10_state.md rule R24), the packing of a bit
sequence into a code element and its 135-bit value (rule R26), the window of `BITS` a DECODE works on (42_decode.md rule
R141), and what a register that is written holds. -/
namespace Sys2Proof.Machine

/-- The 63-bit value of an element of `NODE`: `right ++ left ++ leaf ++ sym ++ weight` (43_host_access.md rule R152). -/
def nodeBits (nd : Node) : BitVec 63 :=
  nd.right ++ nd.left ++ BitVec.ofBool nd.leaf ++ nd.sym ++ nd.weight

/-- The 135-bit value of an element of `CODE`: `valid ++ len ++ bits` (43_host_access.md rule R153). -/
def codeBits (c : Code) : BitVec 135 := BitVec.ofBool c.valid ++ c.len ++ c.bits

/-- A bit sequence as a number, its first bit in bit 0. -/
def sequenceValue : List Bool → Nat
  | [] => 0
  | b :: p => b.toNat + 2 * sequenceValue p

/-- The element of a symbol with code `p`: `{valid = 1, len = len(p), bits = pack(p)}`, `bits[k] = p[k]` and 0 above
(41_assign.md rule R122). -/
def packCode (p : List Bool) : Code where
  bits := BitVec.ofNat 127 (sequenceValue p)
  len := BitVec.ofNat 7 p.length
  valid := true

/-- `code(s)` of an element: the bit sequence `bits[0], ..., bits[len-1]` (10_state.md rule R26). -/
def codeSequence (c : Code) : List Bool := (List.range c.len.toNat).map c.bits.getLsbD

/-- The child a bit selects: 1 the right child, 0 the left (42_decode.md rule R142, 41_assign.md rule R121). -/
def child (nd : Node) (b : Bool) : NodeIdx := if b then nd.right else nd.left

/-- The operand of DECODE is legal: `BITPOS <= BITLEN` and `BITLEN <= BITCAP` (42_decode.md rule R141), with the instance's
own `BITCAP` (00_scope.md rule R13). -/
def windowLegal (s : State) : Bool :=
  decide (s.bitpos.toNat ≤ s.bitlen.toNat) && decide (s.bitlen.toNat ≤ s.bits.length)

/-- The bit sequence handed to DECODE: `BITS[BITPOS], ..., BITS[BITLEN-1]` (42_decode.md rule R141). -/
def window (s : State) : List Bool :=
  (s.bits.drop s.bitpos.toNat).take (s.bitlen.toNat - s.bitpos.toNat)

/-- What `DEC_CONSUMED <- k` leaves in the 8-bit register: `k`; for a `k` it cannot hold, which only an arena that is not
well formed gives, the free value. Log entry 8. -/
def consumedByte (k : Nat) : BitVec 8 := if k < 256 then BitVec.ofNat 8 k else Config.consumedBeyond k

/-- `zext_8(sym)`, the symbol as `DEC_SYMBOL` holds it (42_decode.md rule R140). -/
def symbolByte (sym : Symbol) : BitVec 8 := sym.setWidth 8

/-- `zext_39(WEIGHT[s])`, a leaf's weight (40_build.md rule R100). -/
def leafWeight (w : Weight) : SumWeight := w.setWidth 39

/-- The command word in a value written to `CMD`: `v[7:0]` (43_host_access.md rule R156). -/
def commandWord (v : BitVec 16) : CmdWord := v.extractLsb 7 0

end Sys2Proof.Machine
end

