-- ==== Sys2Proof/Machine/Arena.lean ====
section
/-! DEFINITION. The tree in the arena: reaching a node by its index with the missing-child check (41_assign.md rule R124,
42_decode.md rule R145), the paths (10_state.md rule R38), and the well-formedness predicate `WF` (rule R38). All of it
is a function of the arena `N`, the count `n` and a root index `r` alone. -/
namespace Sys2Proof.Machine

/-- The node a walk is about to visit; `none` is a missing child: the index is `NULL` or `>= NODE_COUNT` (41_assign.md
rule R124). -/
def nodeAt (N : Vector Node 255) (n i : NodeIdx) : Option Node :=
  if i = nullIdx ∨ n.toNat ≤ i.toNat then none else N[i.toNat]?

/-- The node reached from index `i` along a bit sequence, 0 to the left child and 1 to the right; `none` where the walk
meets a missing child or would leave a leaf. `path(j) = p` of 10_state.md rule R38 is `follow N n r p = some j`. -/
def follow (N : Vector Node 255) (n : NodeIdx) : NodeIdx → List Bool → Option NodeIdx
  | i, [] => (nodeAt N n i).map fun _ => i
  | i, b :: p =>
    match nodeAt N n i with
    | none => none
    | some nd => if nd.leaf then none else follow N n (child nd b) p

/-! ## `WF(N, n, r)`, 10_state.md rule R38, over the list of the nodes of the current tree -/

/-- The nodes of the current tree, `NODE[0]` .. `NODE[NODE_COUNT - 1]` (10_state.md rule R25). -/
def treeNodes (N : Vector Node 255) (n : NodeIdx) : List Node := N.toList.take n.toNat

/-- Clause (a): `1 <= n <= 255`, `n` is odd, and `r < n`. -/
def wfCount (n r : NodeIdx) : Bool :=
  decide (1 ≤ n.toNat) && decide (n.toNat ≤ 255) && decide (n.toNat % 2 = 1) && decide (r.toNat < n.toNat)

/-- Clause (b): a leaf has no children. -/
def wfLeaves (l : List Node) : Bool :=
  l.all fun nd => !nd.leaf || (nd.left == nullIdx && nd.right == nullIdx)

/-- Clause (c): the children of an internal node are two different earlier nodes. -/
def wfChildren (l : List Node) : Bool :=
  l.zipIdx.all fun p =>
    p.1.leaf || (decide (p.1.left.toNat < p.2) && decide (p.1.right.toNat < p.2) && p.1.left != p.1.right)

/-- The child fields of the internal nodes, in index order, `left` before `right`. -/
def childIndices (l : List Node) : List Nat :=
  l.flatMap fun nd => if nd.leaf then [] else [nd.left.toNat, nd.right.toNat]

/-- How many child fields of internal nodes hold the index `j`. -/
def parentCount (l : List Node) (j : Nat) : Nat := (childIndices l).count j

/-- Clause (d): every node but the root is the child of exactly one node, in one of its two fields; the root of none. -/
def wfParents (l : List Node) (r : NodeIdx) : Bool :=
  (List.range l.length).all fun j => parentCount l j == if j = r.toNat then 0 else 1

/-- Clause (e): no two leaves have the same symbol. -/
def wfSymbols (l : List Node) : Bool := decide ((l.filter Node.leaf).map Node.sym).Nodup

/-- The weight of the node at an index, 0 past the end of the list. -/
def weightAt (l : List Node) (i : Nat) : Nat :=
  match l[i]? with
  | some nd => nd.weight.toNat
  | none => 0

/-- Clause (f): an internal node's weight is the sum of its children's weights. -/
def wfWeights (l : List Node) : Bool :=
  l.all fun nd => nd.leaf || nd.weight.toNat == weightAt l nd.left.toNat + weightAt l nd.right.toNat

/-- `WF(N, n, r)` (10_state.md rule R38). -/
def wfArena (N : Vector Node 255) (n r : NodeIdx) : Bool :=
  wfCount n r && wfLeaves (treeNodes N n) && wfChildren (treeNodes N n) && wfParents (treeNodes N n) r &&
    wfSymbols (treeNodes N n) && wfWeights (treeNodes N n)

end Sys2Proof.Machine
end

