-- ==== Sys2Proof/Machine/CodeAssigner.lean ====
section
/-! DEFINITION. The Code Assigner: the command ASSIGN (41_assign.md). -/
namespace Sys2Proof.Machine

/-- How a walk ends. -/
inductive WalkEnd where
  /-- Every node below was visited: the leaves with their accumulated sequences, left subtree first. -/
  | leaves (l : List (Symbol × List Bool))
  /-- A missing child was met (41_assign.md rule R124). -/
  | missing
  /-- The walk goes round a cycle and meets no missing child. -/
  | endless
deriving DecidableEq, Repr

/-- `Walk(i, p)` (41_assign.md rule R122), the left subtree before the right. The first argument bounds the depth: a path
of more than 255 nodes goes round a cycle, since at most 255 indices pass the missing-child check, and the walk then
never ends. Log entry 7. -/
def walk (N : Vector Node 255) (n : NodeIdx) : Nat → NodeIdx → List Bool → WalkEnd
  | 0, i, _ =>
    match nodeAt N n i with
    | none => .missing
    | some _ => .endless
  | fuel + 1, i, p =>
    match nodeAt N n i with
    | none => .missing
    | some nd =>
      if nd.leaf then .leaves [(nd.sym, p)]
      else
        match walk N n fuel nd.left (p ++ [false]) with
        | .missing => .missing
        | .endless => .endless
        | .leaves l =>
          match walk N n fuel nd.right (p ++ [true]) with
          | .missing => .missing
          | .endless => .endless
          | .leaves r => .leaves (l ++ r)

/-- The bound on the depth of a walk that ends. -/
def walkFuel : Nat := 256

/-- The code table with one element written per leaf, the others absent (41_assign.md rules R120, R122). -/
def codeTable (leaves : List (Symbol × List Bool)) : Vector Code 128 :=
  leaves.foldl (fun t e => t.setIfInBounds e.1.toNat (packCode e.2)) emptyCodes

/-- The state of ASSIGN's `on raise` arm: the table cleared, `CODES_VALID` 0, `FAULT` latched (41_assign.md rule R120). -/
def assignFault (s : State) : State := ((s.setCodes emptyCodes).markCodes false).raiseInvariant

/-- The state of an ASSIGN that completes (41_assign.md rule R120). -/
def assignDone (s : State) (leaves : List (Symbol × List Bool)) : State :=
  ((s.setCodes (codeTable leaves)).markCodes true).finish .ok

/-- The walk of ASSIGN and what follows it. A missing child ends in the fault (R124); an arena that is not well formed
where none is met is not defined (R126). Log entry 6. -/
def assignWalk (s : State) : Result :=
  match walk s.node s.nodeCount walkFuel s.root [] with
  | .missing => .next (assignFault s)
  | .endless => .refused .assignIllFormed
  | .leaves l =>
    if wfArena s.node s.nodeCount s.root then .next (assignDone s l) else .refused .assignIllFormed

/-- ASSIGN (41_assign.md rule R120). -/
def execAssign (s : State) : Result :=
  unlessFaulted s (if s.status.treeValid then assignWalk s else .next (s.finish .noTree))

end Sys2Proof.Machine
end

