-- ==== Sys2Proof/Machine/Decoder.lean ====
section
/-! DEFINITION. The Decoder: the command DECODE (42_decode.md). -/
namespace Sys2Proof.Machine

/-- How the walk of one DECODE ends, with the number of bits consumed (42_decode.md rule R140). -/
inductive DecodeEnd where
  /-- On a leaf: its symbol. -/
  | symbol (sym : Symbol) (k : Nat)
  /-- On an internal node with no bit left (rule R144). -/
  | outOfBits (k : Nat)
  /-- At a missing child; `k` counts the bit that selected it (rule R145). -/
  | missing (k : Nat)
deriving DecidableEq, Repr

/-- The loop of DECODE from node `nd`, the bits left and the bits consumed so far (42_decode.md rules R140, R142). At one
node the leaf test precedes the out-of-bits test (60_exceptions.md rule R180). -/
def decodeLoop (N : Vector Node 255) (n : NodeIdx) : List Bool → Node → Nat → DecodeEnd
  | [], nd, k => if nd.leaf then .symbol nd.sym k else .outOfBits k
  | b :: rest, nd, k =>
    if nd.leaf then .symbol nd.sym k
    else
      match nodeAt N n (child nd b) with
      | none => .missing (k + 1)
      | some nd' => decodeLoop N n rest nd' (k + 1)

/-- The registers and code an end leaves (42_decode.md rule R140, the table of results). -/
def decodeFinish (s : State) : DecodeEnd → State
  | .symbol sym k => (s.setDecoded (symbolByte sym) (consumedByte k)).finish .ok
  | .outOfBits k => (s.setDecoded 0xFF#8 (consumedByte k)).finish .incomplete
  | .missing k => (s.setDecoded 0xFF#8 (consumedByte k)).raiseInvariant

/-- One DECODE of an input, empty or not, on the current tree (42_decode.md rules R140, R143). -/
def decodeInput (s : State) (input : List Bool) : State :=
  if input = [] then s.finish .incomplete
  else
    match nodeAt s.node s.nodeCount s.root with
    | none => s.raiseInvariant
    | some nd => decodeFinish s (decodeLoop s.node s.nodeCount input nd 0)

/-- The state DECODE leaves, the checks in the order of 60_exceptions.md rule R180. -/
def decodeState (s : State) : State :=
  let s0 := s.setDecoded 0xFF#8 0#8
  if s0.status.treeValid = false then s0.finish .noTree
  else if windowLegal s0 = false then s0.finish .badOperand
  else decodeInput s0 (window s0)

/-- DECODE (42_decode.md rule R140). -/
def execDecode (s : State) : Result := unlessFaulted s (.next (decodeState s))

end Sys2Proof.Machine
end

