-- ==== Sys2Proof/Machine/TreeBuilder.lean ====
section
/-! DEFINITION. The Tree Builder: the command BUILD (40_build.md). -/
namespace Sys2Proof.Machine

/-- `Included(s, min)`: symbol 0 always, a symbol of non-zero weight always, every symbol when `MIN = 0` (40_build.md rule
R101). -/
def included (w : Weight) (s : Nat) (min : Bool) : Bool := decide (s = 0) || decide (w ≠ 0#32) || !min

/-- The leaf of symbol `s` (40_build.md rule R100). -/
def leafNode (w : Weight) (s : Nat) : Node where
  weight := leafWeight w
  sym := BitVec.ofNat 7 s
  leaf := true
  left := nullIdx
  right := nullIdx

/-- The leaves BUILD creates, in ascending symbol order; a leaf's place in the list is its arena index (40_build.md rules
R100, R108). -/
def leafNodes (weights : Vector Weight 128) (min : Bool) : List Node :=
  weights.toList.zipIdx.filterMap fun p => if included p.1 p.2 min then some (leafNode p.1 p.2) else none

/-- A node in the queue, with its arena index (the creation sequence, 10_state.md rule R24). -/
abbrev Queued := Node × Nat

/-- `NodeLess(a, b)`: weight, then symbol between two leaves, then index (40_build.md rule R102). -/
def nodeLess (a b : Queued) : Bool :=
  if a.1.weight ≠ b.1.weight then decide (a.1.weight < b.1.weight)
  else if a.1.leaf && b.1.leaf then decide (a.1.sym < b.1.sym)
  else decide (a.2 < b.2)

/-- `ExtractMin(Q)`: the lowest node of the queue and the rest, `none` when the queue is empty (40_build.md rule R103). The
order in which the list holds the queue means nothing. -/
def extractMin : List Queued → Option (Queued × List Queued)
  | [] => none
  | x :: q =>
    match extractMin q with
    | none => some (x, [])
    | some (m, rest) => if nodeLess x m then some (x, m :: rest) else some (m, x :: rest)

/-- The merge step: the first removed node `a` becomes the left child, the second, `b`, the right (40_build.md rule
R104). -/
def mergeNode (a b : Queued) : Node where
  weight := a.1.weight + b.1.weight
  sym := 0#7
  leaf := false
  left := BitVec.ofNat 8 a.2
  right := BitVec.ofNat 8 b.2

/-- The merge loop: the queue, the nodes created so far (the next free index is their number), and a bound on the merges;
answers all the nodes and the root's index (40_build.md rule R100). Every merge shortens the queue by one, so a bound of
the queue's length is never met; the two arms that answer `NULL` are never reached from a queue with a node. Log entry
16. -/
def mergeLoop : Nat → List Queued → List Node → List Node × Nat
  | fuel, q, made =>
    match extractMin q with
    | none => (made, 255)
    | some (a, q1) =>
      match extractMin q1 with
      | none => (made, a.2)
      | some (b, q2) =>
        match fuel with
        | 0 => (made, 255)
        | fuel + 1 => mergeLoop fuel ((mergeNode a b, made.length) :: q2) (made ++ [mergeNode a b])

/-- The tree of a weight table: the nodes in the order of their creation, and the root's index (40_build.md rule R100). A
function of the weights and `MIN` alone (R109). -/
def buildTree (weights : Vector Weight 128) (min : Bool) : List Node × Nat :=
  let leaves := leafNodes weights min
  mergeLoop leaves.length leaves.zipIdx leaves

/-- The state BUILD leaves (40_build.md rule R100). -/
def buildState (min : Bool) (s : State) : State :=
  ((((s.setTree (buildTree s.weight min).1 (buildTree s.weight min).2).setCodes emptyCodes).markBuilt).finish .ok)

/-- BUILD (40_build.md rule R100). -/
def execBuild (min : Bool) (s : State) : Result := unlessFaulted s (.next (buildState min s))

end Sys2Proof.Machine
end

