-- ==== Sys2Proof/Machine/Dispatch.lean ====
section
/-! DEFINITION. The meaning of each command: what a write of its word to `CMD` does (30_encoding.md rule R85). -/
namespace Sys2Proof.Machine

def exec (i : Instr) (s : State) : Host.Outcome State Fault Refusal :=
  match i with
  | .build min => Sys2Proof.Machine.execBuild min s
  | .assign => Sys2Proof.Machine.execAssign s
  | .decode => Sys2Proof.Machine.execDecode s

end Sys2Proof.Machine
end

