-- ==== Sys2Proof/Machine/HostAccess.lean ====
section
/-! DEFINITION. What the world outside does to the block: executing a command word (30_encoding.md rule R85), the host's
reads and writes (43_host_access.md), and the platform's reset. -/
namespace Sys2Proof.Machine

/-- `Execute(w)`: a host write of `w` to `CMD` (30_encoding.md rule R85). The check of `FAULT`, which comes first, is in
each command's meaning and in `illegalCommand`. Log entry 11. -/
def execute (w : CmdWord) (s : State) : Result :=
  match decode w with
  | .ok i => exec i s
  | .error _ => illegalCommand s

/-- `MemWrite(REG, r, v)` (43_host_access.md rule R156): `CMD` executes, `BITPOS` and `BITLEN` take the value, the
read-only registers ignore it (20_memory.md rule R66). -/
def writeRegister (s : State) (r : RegName) (v : BitVec 16) : Result :=
  match r with
  | .cmd => execute (commandWord v) s
  | .bitpos => .next (s.setBitpos v)
  | .bitlen => .next (s.setBitlen v)
  | .status => .next s
  | .root => .next s
  | .nodeCount => .next s
  | .decSymbol => .next s
  | .decConsumed => .next s

/-- Returns a read's value to the host; an index out of range has no value (20_memory.md rule R63). -/
def answerRead (s : State) (sp : Space) (i : Nat) (v : Option HostValue) : Result :=
  match v with
  | some x => .next (s.give x)
  | none => .refused (.badIndex sp i)

/-- A write to `s` that leaves `s'`, if the index is in its space's range (20_memory.md rules R60, R63). -/
def storeAt (s : State) (sp : Space) (i : Nat) (s' : State) : Result :=
  if i < spaceSize s sp then .next s' else .refused (.badIndex sp i)

/-- One host access, one atomic transition (20_memory.md rules R61, R65 to R67; 43_host_access.md rules R150 to R157). -/
def perform (a : HostAction) (s : State) : Result :=
  match a with
  | .wrw i v => storeAt s .weight i (s.setWeight i v)
  | .rdw i => answerRead s .weight i (s.weight[i]?.map .weight)
  | .wrn i _ => storeAt s .node i s
  | .rdn i => answerRead s .node i (s.node[i]?.map fun nd => .node (nodeBits nd))
  | .wrc i _ => storeAt s .code i s
  | .rdc i => answerRead s .code i (s.code[i]?.map fun c => .code (codeBits c))
  | .wrb i b => storeAt s .bits i (s.setBit i b)
  | .rdb i => answerRead s .bits i (s.bits[i]?.map .bit)
  | .wrr i v =>
    match registerOf i with
    | some r => writeRegister s r v
    | none => .refused (.badIndex .reg i)
  | .rdr i => answerRead s .reg i ((registerOf i).map (readRegister s))

/-- One event from outside. -/
def performInput (e : Input) (s : State) : Result :=
  match e with
  | .host a => perform a s
  | .reset => .next s.platformReset

/-- Takes the next event of the issue order and performs it (20_memory.md rule R67); with nothing issued the block is
quiescent (70_reset_and_hazards.md rule R210). Log entries 1, 2. -/
def takeInput (s : State) : Result :=
  match s.inbox with
  | [] => .next s
  | e :: rest => performInput e (s.withInbox rest)

/-- The host's write of a command word of `nbits` bits with the value `w` to `CMD`. -/
def commandWrite (nbits w : Nat) : Input := .host (.wrr 0 (BitVec.ofNat 16 (w % 2 ^ nbits)))

/-- The same state with that write as the next thing to happen. Log entry 12. -/
def State.issueFirst (s : State) (e : Input) : State := s.withInbox (e :: s.inbox)

/-- The same state with one more event at the end of the issue order: the world outside issues it. -/
def State.issue (s : State) (e : Input) : State := s.withInbox (s.inbox ++ [e])

end Sys2Proof.Machine
end

