-- ==== Sys2Proof/Machine/Step.lean ====
section
/-! DEFINITION. One step: the next event of the issue order, as one atomic transition (20_memory.md rule R67). -/
namespace Sys2Proof.Machine

/-- One step of the machine. -/
def step (s : State) : Host.Outcome State Fault Refusal := takeInput s

/-- `s` with the command word as the next thing the host writes to `CMD`, so that the next step runs it. The block has no
stored program and no fetch (10_state.md rule R22). Log entry 12. -/
def State.withFetchWord (s : State) (nbits w : Nat) : State := s.issueFirst (commandWrite nbits w)

end Sys2Proof.Machine
end

