-- ==== Sys2Proof/Machine/HostScript.lean ====
section
/-! DEFINITION. The host script (30_encoding.md rules R87, R88): the three command lines as host actions, and the
pseudo-operations, which are host software and not commands of the block. -/
namespace Sys2Proof.Machine

/-- The line of a command: a write of its word to `CMD` (30_encoding.md rule R87). -/
def commandLine (i : Instr) : HostAction := .wrr (registerNumber .cmd) ((encode i).setWidth 16)

/-- `WRR name, v` (30_encoding.md rule R87). -/
def wrrLine (r : RegName) (v : BitVec 16) : HostAction := .wrr (registerNumber r) v

/-- `RDR name` (30_encoding.md rule R87). -/
def rdrLine (r : RegName) : HostAction := .rdr (registerNumber r)

/-- The value a table of listed symbols gives a symbol, 0 when it is not listed (30_encoding.md rule R88). -/
def listedWeight : List (Nat × Weight) → Nat → Weight
  | [], _ => 0#32
  | e :: t, s => if e.1 = s then e.2 else listedWeight t s

/-- `LDW`: 128 lines `WRW s, v` in ascending order (30_encoding.md rule R88). -/
def ldw (t : List (Nat × Weight)) : List HostAction := (List.range 128).map fun s => .wrw s (listedWeight t s)

/-- `LDBITS`: the bits from index 0, then `BITPOS` and `BITLEN` (30_encoding.md rule R88). -/
def ldbits (p : List Bool) : List HostAction :=
  (p.zipIdx.map fun e => .wrb e.2 e.1) ++
    [wrrLine .bitpos 0#16, wrrLine .bitlen (BitVec.ofNat 16 p.length)]

/-- The position `ADV` writes: `BITPOS + DEC_CONSUMED`, in 16 bits (30_encoding.md rule R88). Log entry 19. -/
def advanced (s : State) : BitVec 16 := s.bitpos + s.decConsumed.setWidth 16

/-- `ADV`: the caller advances the bit position (30_encoding.md rule R88). -/
def adv (s : State) : List HostAction := [rdrLine .decConsumed, rdrLine .bitpos, wrrLine .bitpos (advanced s)]

/-- `EMIT s`: the bits the host appends for a symbol; an error of the host program when the symbol has no code
(30_encoding.md rule R88). -/
def emit (s : State) (sym : Symbol) : Option (List Bool) :=
  match s.code[sym.toNat]? with
  | none => none
  | some c => if c.valid then some (codeSequence c) else none

/-- The bits of a list of symbols, one `EMIT` each. -/
def emitAll (s : State) : List Symbol → Option (List Bool)
  | [] => some []
  | a :: l =>
    match emit s a, emitAll s l with
    | some p, some q => some (p ++ q)
    | _, _ => none

/-- `ENCODE`: the symbols' codes and then the terminator's (30_encoding.md rule R88). -/
def encodeSymbols (s : State) (l : List Symbol) : Option (List Bool) := emitAll s (l ++ [0#7])

/-- The host's decode loop, `DECODE ; ADV` a number of times, while each DECODE ends with `ST_OK`: the symbols
(70_reset_and_hazards.md rule R202). -/
def decodeSymbols : Nat → State → Option (List (BitVec 8))
  | 0, _ => some []
  | m + 1, s =>
    match exec .decode s with
    | .next t =>
      if t.status.code = .ok then (decodeSymbols m (t.setBitpos (advanced t))).map (t.decSymbol :: ·) else none
    | .fault _ => none
    | .refused _ => none

/-- The same state with a list of host actions issued. -/
def State.issueAll (s : State) (l : List HostAction) : State := s.withInbox (s.inbox ++ l.map Input.host)

end Sys2Proof.Machine
end

