-- ==== Sys2Proof/Safety.lean ====
section
/-! DEFINITION. What counts as a good state: the invariants the spec states of every state reachable from reset
(10_state.md rules R26, R30, R33, R34, R38 to R40), and reachability itself, the world outside issuing what it likes. -/
namespace Sys2Proof.Machine

/-- `L`, the number of leaves (10_state.md rule R39). -/
def leafCount (l : List Node) : Nat := (l.filter Node.leaf).length

/-- The leaves are the first `L` nodes, the internal nodes the rest (10_state.md rule R39). -/
def leavesFirst (l : List Node) : Bool := l.zipIdx.all fun p => p.1.leaf == decide (p.2 < leafCount l)

/-- The leaves' symbols, in index order. -/
def leafSymbols (l : List Node) : List Nat := (l.filter Node.leaf).map fun nd => nd.sym.toNat

/-- The leaves are in strictly ascending symbol order, the terminator's first (10_state.md rule R39). -/
def leavesAscending (l : List Node) : Bool :=
  decide ((leafSymbols l).Pairwise (· < ·)) && decide ((leafSymbols l).head? = some 0)

/-- The shape a built tree has beyond `WF`: its leaves first and ascending, `NODE_COUNT = 2L - 1`, `ROOT = NODE_COUNT - 1`
(10_state.md rule R39). -/
def treeShape (N : Vector Node 255) (n r : NodeIdx) : Bool :=
  leavesFirst (treeNodes N n) && leavesAscending (treeNodes N n) &&
    decide (n.toNat + 1 = 2 * leafCount (treeNodes N n)) && decide (r.toNat + 1 = n.toNat)

/-- The leaf of symbol `sym` is at the end of the sequence `p` from the root: `path(j) = p` for a leaf `j` with that symbol
(10_state.md rules R38, R40). -/
def leafAtPath (s : State) (sym : Nat) (p : List Bool) : Bool :=
  match follow s.node s.nodeCount s.root p with
  | none => false
  | some j =>
    match nodeAt s.node s.nodeCount j with
    | none => false
    | some nd => nd.leaf && decide (nd.sym.toNat = sym)

/-- Every valid code is the path of its symbol's leaf (10_state.md rule R40). -/
def codesAgree (s : State) : Bool :=
  s.code.toList.zipIdx.all fun p => !p.1.valid || leafAtPath s p.2 (codeSequence p.1)

/-- The symbol of every leaf has a code (10_state.md rule R40, the converse). -/
def codesComplete (s : State) : Bool :=
  (treeNodes s.node s.nodeCount).all fun nd =>
    !nd.leaf || (s.code[nd.sym.toNat]?.map Code.valid == some true)

/-! ## The Tree Builder, said of the tree it leaves -/

/-- The symbols that get a leaf, ascending (40_build.md rule R101). -/
def includedSymbols (w : Vector Weight 128) (min : Bool) : List Nat :=
  (List.range 128).filter fun s => decide (s = 0) || decide (w[s]? ≠ some 0#32) || !min

/-- Node `a` is before node `b`: the three keys of 40_build.md rule R102, over arena indices. -/
def lowerNode (l : List Node) (a b : Nat) : Prop :=
  ∃ x y, l[a]? = some x ∧ l[b]? = some y ∧
    (x.weight.toNat < y.weight.toNat ∨
      (x.weight = y.weight ∧
        ((x.leaf = true ∧ y.leaf = true ∧ x.sym.toNat < y.sym.toNat) ∨
          (¬(x.leaf = true ∧ y.leaf = true) ∧ a < b))))

/-- Node `j` is in the queue when node `i` is about to be created: it was created before, and no node created before `i`
has it as a child (40_build.md rule R100). -/
def inQueueAt (l : List Node) (i j : Nat) : Prop :=
  j < i ∧ ∀ k < i, ∀ nd, l[k]? = some nd → nd.leaf = false → nd.left.toNat ≠ j ∧ nd.right.toNat ≠ j

/-- The weights of the leaves beneath the node at index `i`, added (10_state.md rule R24); the first argument bounds the
depth. -/
def leafWeightSum (l : List Node) : Nat → Nat → Nat
  | 0, _ => 0
  | fuel + 1, i =>
    match l[i]? with
    | none => 0
    | some nd =>
      if nd.leaf then nd.weight.toNat
      else leafWeightSum l fuel nd.left.toNat + leafWeightSum l fuel nd.right.toNat

/-! ## The walk of ASSIGN on any arena, with no bound

`Walk(i, p)` of 41_assign.md rule R122 as the ways in which it can end, the left subtree walked before the right. A walk that
goes round a cycle before it meets a missing child ends in neither. -/

/-- The walk from index `i` visits every node beneath it and returns. -/
inductive WalkReturns (N : Vector Node 255) (n : NodeIdx) : NodeIdx → Prop where
  | leaf (i : NodeIdx) (nd : Node) : nodeAt N n i = some nd → nd.leaf = true → WalkReturns N n i
  | node (i : NodeIdx) (nd : Node) : nodeAt N n i = some nd → nd.leaf = false → WalkReturns N n nd.left →
      WalkReturns N n nd.right → WalkReturns N n i

/-- The walk from index `i` meets a missing child: the index itself is one (41_assign.md rule R124), or the walk of the left
subtree meets one, or that returns and the walk of the right subtree meets one. -/
inductive WalkMeetsMissing (N : Vector Node 255) (n : NodeIdx) : NodeIdx → Prop where
  | here (i : NodeIdx) : nodeAt N n i = none → WalkMeetsMissing N n i
  | left (i : NodeIdx) (nd : Node) : nodeAt N n i = some nd → nd.leaf = false → WalkMeetsMissing N n nd.left →
      WalkMeetsMissing N n i
  | right (i : NodeIdx) (nd : Node) : nodeAt N n i = some nd → nd.leaf = false → WalkReturns N n nd.left →
      WalkMeetsMissing N n nd.right → WalkMeetsMissing N n i

/-! ## The input of DECODE -/

/-- The bits of `BITS` from `BITPOS` on begin with `p`. -/
def bitsBegin (s : State) (p : List Bool) : Prop :=
  ∀ k b, p[k]? = some b → s.bits[s.bitpos.toNat + k]? = some b

/-! ## The invariant -/

/-- The invariant of the states reachable from reset. -/
structure Inv (s : State) : Prop where
  /-- The capacity of `BITS` is a legal one (00_scope.md rule R13). -/
  capacity : Config.LegalBitcap s.bits.length
  /-- No invariant violation is ever found (10_state.md rule R39, 60_exceptions.md rule R173). -/
  noFault : s.status.fault = false
  /-- `CODE` is in canonical form (10_state.md rule R26). -/
  canonical : Memory.wf s = true
  /-- A tree is well formed and has the shape BUILD gives it (10_state.md rules R38, R39). -/
  tree : s.status.treeValid = true →
    wfArena s.node s.nodeCount s.root = true ∧ treeShape s.node s.nodeCount s.root = true
  /-- Before the first BUILD there is no tree (10_state.md rules R31, R32). -/
  noTree : s.status.treeValid = false → s.root = nullIdx ∧ s.nodeCount = 0#8
  /-- Every valid code is a path of the current tree (10_state.md rule R40). -/
  codes : codesAgree s = true
  /-- `CODES_VALID` says that every leaf has its code (10_state.md rules R30, R40). -/
  complete : s.status.codesValid = true → s.status.treeValid = true ∧ codesComplete s = true
  /-- `DEC_SYMBOL` is a symbol or 0xFF (10_state.md rule R33). -/
  decoded : s.decSymbol.toNat ≤ 127 ∨ s.decSymbol = 0xFF#8
  /-- `DEC_CONSUMED` is at most 127 (10_state.md rule R34). -/
  consumed : s.decConsumed.toNat ≤ 127

/-- The states reachable from reset, of an instance of any legal capacity (00_scope.md rule R13) at any reset number, the
world outside issuing any event at any time. -/
inductive Reachable : State → Prop where
  | reset (bitcap epoch : Nat) : Config.LegalBitcap bitcap → Reachable (State.atReset bitcap epoch)
  | issue (s : State) (e : Input) : Reachable s → Reachable (s.issue e)
  | step (s t : State) : Reachable s → step s = .next t → Reachable t

end Sys2Proof.Machine
end

