-- ==== Sys2Proof/WellFormed.lean ====
section
/-! DEFINITION. Well-formedness of the syntax: which command words are legal (30_encoding.md rules R82 to R84), and which
host accesses are legal host actions (20_memory.md rules R60, R63). -/
namespace Sys2Proof

/-- Every command term is well formed: the only operand is one bit (30_encoding.md rule R82). -/
def Instr.wellFormed : Instr → Bool
  | .build _ => true
  | .assign => true
  | .decode => true

/-- A command word is legal when its reserved bits are 0 (R83), its `OP` is not 0b00, and `MIN` is set only with BUILD
(R82, R84). -/
def legalWord (w : CmdWord) : Bool :=
  w.extractLsb 7 3 == 0#5 && w.extractLsb 1 0 != 0b00#2 && (!w.getLsbD 2 || w.extractLsb 1 0 == 0b01#2)

/-- A host access to an instance of capacity `bitcap` is legal when its index lies in its space's range (20_memory.md rule
R60, 00_scope.md rule R13). -/
def HostAction.wellFormed (bitcap : Nat) : HostAction → Bool
  | .wrw s _ => decide (s < 128)
  | .rdw s => decide (s < 128)
  | .wrn i _ => decide (i < 255)
  | .rdn i => decide (i < 255)
  | .wrc s _ => decide (s < 128)
  | .rdc s => decide (s < 128)
  | .wrb i _ => decide (i < bitcap)
  | .rdb i => decide (i < bitcap)
  | .wrr r _ => decide (r < 8)
  | .rdr r => decide (r < 8)

end Sys2Proof
end

