-- ==== Sys2Proof/Certificates/Slice0/Obligations.lean ====
section
/-! DEFINITION. The statements for the provers. Each docstring names the rule of spec/ it formalises. A state after is
written as the state before with the fields that change, so that a statement says its own frame. -/

open Sys2Proof Sys2Proof.Machine

/-! ## Command words -/

/-- 30_encoding.md rule R84: the four legal words, the three match and mask rows, and what an illegal word does. -/
def Obligations.LegalWordsAreExactlyFour : Prop :=
  (∀ w i, decode w = .ok i ↔
      (w = 0x01#8 ∧ i = .build false) ∨ (w = 0x05#8 ∧ i = .build true) ∨ (w = 0x02#8 ∧ i = .assign) ∨
        (w = 0x03#8 ∧ i = .decode)) ∧
    (∀ w : CmdWord, (∃ i, decode w = .ok i) ↔
      w &&& 0xFB#8 = 0x01#8 ∨ w &&& 0xFF#8 = 0x02#8 ∨ w &&& 0xFF#8 = 0x03#8) ∧
    ∀ (w : CmdWord) (s : State), (∀ i, decode w ≠ .ok i) → s.status.fault = false →
      execute w s = .next { s with status := { s.status with code := .illegalCmd } }

/-- Every command's word decodes to it, and a word that decodes is the word of what it decodes to. -/
def Obligations.DecodeEncodeRoundTrip : Prop :=
  (∀ i, decode (encode i) = .ok i) ∧ ∀ w i, decode w = .ok i → encode i = w

/-- A few words written out bit by bit (95_test_vectors.md V-E1), and the host's reading of the table rows. -/
def Obligations.SampleCommandWords : Prop :=
  decode 0b00000001#8 = .ok (.build false) ∧ decode 0b00000101#8 = .ok (.build true) ∧
    decode 0b00000010#8 = .ok .assign ∧ decode 0b00000011#8 = .ok .decode ∧
    decode 0b00000000#8 = .error .reservedOp ∧ decode 0b00000110#8 = .error .minWithoutBuild ∧
    decode 0b00001001#8 = .error .reservedBits ∧ decode 0b10000001#8 = .error .reservedBits ∧
    decodeTableWord 8 5 = some (.build true) ∧ decodeTableWord 8 4 = none

/-- A step runs the decoded command: when the next thing issued is a write to `CMD` whose word decodes to a well-formed
command, the step is that command's meaning on the state with the write taken off the issue order. -/
def Obligations.StepRunsDecodedCommand : Prop :=
  (∀ (s : State) rest v i, s.inbox = .host (.wrr 0 v) :: rest → decode (v.extractLsb 7 0) = .ok i →
      i.wellFormed = true → step s = exec i { s with inbox := rest }) ∧
    ∀ (s : State) i, step (s.withFetchWord 8 (encode i).toNat) = exec i s

/-- The checks of `Execute(w)` in the order of 30_encoding.md rule R85. -/
def Obligations.ExecuteChecksInOrder : Prop :=
  ∀ (w : CmdWord) (s : State), execute w s =
    if s.status.fault = true then .next { s with status := { s.status with code := .faulted } }
    else if w.extractLsb 7 3 ≠ 0#5 ∨ w.extractLsb 1 0 = 0b00#2 ∨ (w.getLsbD 2 = true ∧ w.extractLsb 1 0 ≠ 0b01#2) then
      .next { s with status := { s.status with code := .illegalCmd } }
    else if w.extractLsb 1 0 = 0b01#2 then exec (.build (w.getLsbD 2)) s
    else if w.extractLsb 1 0 = 0b10#2 then exec .assign s
    else exec .decode s

/-- 60_exceptions.md rule R177: while the latch is set every word written to `CMD`, legal or not, ends with `ST_FAULTED` and
changes nothing else. -/
def Obligations.FaultLatchRefusesEveryWord : Prop :=
  (∀ (s : State) v, s.status.fault = true →
      perform (.wrr 0 v) s = .next { s with status := { s.status with code := .faulted } }) ∧
    ∀ (s : State) i, s.status.fault = true →
      exec i s = .next { s with status := { s.status with code := .faulted } }

/-- 60_exceptions.md rule R174: a word that is none of the four runs no unit and changes nothing but the code (with the
latch clear, as rule R180 orders the two). -/
def Obligations.IllegalWordWritesOnlyTheCode : Prop :=
  ∀ (s : State) v, s.status.fault = false → v.extractLsb 7 0 ∉ [0x01#8, 0x05#8, 0x02#8, 0x03#8] →
    perform (.wrr 0 v) s = .next { s with status := { s.status with code := .illegalCmd } }

/-! ## The issue order

The issue order itself, `inbox`, and the record of what reads return, `returned`, are the model's own (log entry 1). -/

/-- A step performs the next event issued, taken off the issue order (20_memory.md rule R67), and with nothing issued
changes nothing (70_reset_and_hazards.md rule R210). That the order is held in the state is the model's own choice, log
entries 1 and 2. -/
def Obligations.StepPerformsTheNextEvent : Prop :=
  (∀ (s : State) a rest, s.inbox = .host a :: rest → step s = perform a { s with inbox := rest }) ∧
    ∀ s : State, s.inbox = [] → step s = .next s

/-- What is issued later has no part in the present step (20_memory.md rule R67; log entry 1). -/
def Obligations.LaterIssuesDoNotInterfere : Prop :=
  ∀ (s t : State) (e : Input), s.inbox ≠ [] → step s = .next t →
    step { s with inbox := s.inbox ++ [e] } = .next { t with inbox := t.inbox ++ [e] }

/-! ## Host accesses -/

/-- 43_host_access.md rule R150: the weight written is the weight there, and nothing else changes. -/
def Obligations.HostWritesWeight : Prop :=
  ∀ (s : State) i v, i < 128 →
    ∃ t, perform (.wrw i v) s = .next t ∧ t.weight[i]? = some v ∧ (∀ j, j ≠ i → t.weight[j]? = s.weight[j]?) ∧
      t = { s with weight := t.weight }

/-- 43_host_access.md rule R151. That the value goes at the end of `returned` is the model's own, log entry 1. -/
def Obligations.HostReadsWeight : Prop :=
  ∀ (s : State) i (h : i < 128),
    perform (.rdw i) s = .next { s with returned := s.returned ++ [.weight s.weight[i]] }

/-- 43_host_access.md rule R152 with the field places of 10_state.md rule R24. That the value goes at the end of `returned`
is the model's own, log entry 1. -/
def Obligations.HostReadsNode : Prop :=
  ∀ (s : State) i (h : i < 255),
    ∃ v : BitVec 63, perform (.rdn i) s = .next { s with returned := s.returned ++ [.node v] } ∧
      v.extractLsb 38 0 = s.node[i].weight ∧ v.extractLsb 45 39 = s.node[i].sym ∧ v.getLsbD 46 = s.node[i].leaf ∧
      v.extractLsb 54 47 = s.node[i].left ∧ v.extractLsb 62 55 = s.node[i].right

/-- 43_host_access.md rule R153 with the field places of 10_state.md rule R26. That the value goes at the end of `returned`
is the model's own, log entry 1. -/
def Obligations.HostReadsCode : Prop :=
  ∀ (s : State) i (h : i < 128),
    ∃ v : BitVec 135, perform (.rdc i) s = .next { s with returned := s.returned ++ [.code v] } ∧
      v.extractLsb 126 0 = s.code[i].bits ∧ v.extractLsb 133 127 = s.code[i].len ∧ v.getLsbD 134 = s.code[i].valid

/-- 43_host_access.md rule R154: the bit written is the bit there, and nothing else changes. -/
def Obligations.HostWritesBit : Prop :=
  ∀ (s : State) i b, i < s.bits.length →
    ∃ t, perform (.wrb i b) s = .next t ∧ t.bits[i]? = some b ∧ (∀ j, j ≠ i → t.bits[j]? = s.bits[j]?) ∧
      t.bits.length = s.bits.length ∧ t = { s with bits := t.bits }

/-- 43_host_access.md rule R155. That the value goes at the end of `returned` is the model's own, log entry 1. -/
def Obligations.HostReadsBit : Prop :=
  ∀ (s : State) i (h : i < s.bits.length),
    perform (.rdb i) s = .next { s with returned := s.returned ++ [.bit s.bits[i]] }

/-- 43_host_access.md rule R156: a write to each of the eight registers. -/
def Obligations.HostWritesRegister : Prop :=
  (∀ (s : State) v, perform (.wrr 0 v) s = execute (v.extractLsb 7 0) s) ∧
    (∀ (s : State) v, perform (.wrr 6 v) s = .next { s with bitpos := v }) ∧
    (∀ (s : State) v, perform (.wrr 7 v) s = .next { s with bitlen := v }) ∧
    ∀ (s : State) r v, 1 ≤ r → r ≤ 5 → perform (.wrr r v) s = .next s

/-- 43_host_access.md rule R157: a read of each of the eight registers, `STATUS` by the bits of 10_state.md rule R30 and the
codes of 60_exceptions.md rule R170. That the value goes at the end of `returned` is the model's own, log entry 1. -/
def Obligations.HostReadsRegister : Prop :=
  ∀ (s : State) r, r < 8 →
    ∃ x, perform (.rdr r) s = .next { s with returned := s.returned ++ [x] } ∧
      (r = 0 → x = .reg8 0#8) ∧
      (r = 1 → ∃ v : BitVec 8, x = .reg8 v ∧ v.getLsbD 7 = false ∧ v.getLsbD 6 = s.status.fault ∧
        v.getLsbD 5 = s.status.codesValid ∧ v.getLsbD 4 = s.status.treeValid ∧
        (v.extractLsb 3 0).toNat =
          match s.status.code with
          | .ok => 0
          | .incomplete => 1
          | .invariant => 2
          | .illegalCmd => 3
          | .noTree => 4
          | .badOperand => 5
          | .faulted => 6) ∧
      (r = 2 → x = .reg8 s.root) ∧ (r = 3 → x = .reg8 s.nodeCount) ∧ (r = 4 → x = .reg8 s.decSymbol) ∧
      (r = 5 → x = .reg8 s.decConsumed) ∧ (r = 6 → x = .reg16 s.bitpos) ∧ (r = 7 → x = .reg16 s.bitlen)

/-- 20_memory.md rule R66: a write to a read-only target changes no state. -/
def Obligations.ReadOnlyTargetsIgnoreWrites : Prop :=
  (∀ (s : State) r v, 1 ≤ r → r ≤ 5 → perform (.wrr r v) s = .next s) ∧
    (∀ (s : State) i v, i < 255 → perform (.wrn i v) s = .next s) ∧
    ∀ (s : State) i v, i < 128 → perform (.wrc i v) s = .next s

/-- 20_memory.md rule R63: an access with an index outside its space's range gets no step. -/
def Obligations.OutOfRangeAccessHasNoStep : Prop :=
  ∀ s : State,
    (∀ i v, 128 ≤ i → perform (.wrw i v) s = .refused (.badIndex .weight i)) ∧
      (∀ i, 128 ≤ i → perform (.rdw i) s = .refused (.badIndex .weight i)) ∧
      (∀ i v, 255 ≤ i → perform (.wrn i v) s = .refused (.badIndex .node i)) ∧
      (∀ i, 255 ≤ i → perform (.rdn i) s = .refused (.badIndex .node i)) ∧
      (∀ i v, 128 ≤ i → perform (.wrc i v) s = .refused (.badIndex .code i)) ∧
      (∀ i, 128 ≤ i → perform (.rdc i) s = .refused (.badIndex .code i)) ∧
      (∀ i b, s.bits.length ≤ i → perform (.wrb i b) s = .refused (.badIndex .bits i)) ∧
      (∀ i, s.bits.length ≤ i → perform (.rdb i) s = .refused (.badIndex .bits i)) ∧
      (∀ i v, 8 ≤ i → perform (.wrr i v) s = .refused (.badIndex .reg i)) ∧
      ∀ i, 8 ≤ i → perform (.rdr i) s = .refused (.badIndex .reg i)

/-- 20_memory.md rule R65: a read changes nothing but the record of what was read (the model's own, log entry 1), and the
same read again returns the same value. -/
def Obligations.ReadsHaveNoSideEffect : Prop :=
  ∀ (s : State) a, a.wellFormed s.bits.length = true →
    ((∃ i, a = .rdw i) ∨ (∃ i, a = .rdn i) ∨ (∃ i, a = .rdc i) ∨ (∃ i, a = .rdb i) ∨ ∃ i, a = .rdr i) →
    ∃ x, perform a s = .next { s with returned := s.returned ++ [x] } ∧
      perform a { s with returned := s.returned ++ [x] } = .next { s with returned := s.returned ++ [x] ++ [x] }

/-- No command writes `WEIGHT`, `BITS`, `BITPOS` or `BITLEN` (10_state.md rules R23, R27, R35, R36), nor the host's own. -/
def Obligations.CommandsNeverWriteHostState : Prop :=
  ∀ i (s t : State), exec i s = .next t →
    t.weight = s.weight ∧ t.bits = s.bits ∧ t.bitpos = s.bitpos ∧ t.bitlen = s.bitlen ∧ t.inbox = s.inbox ∧
      t.returned = s.returned ∧ t.resets = s.resets

/-! ## BUILD -/

/-- BUILD completes on every content of `WEIGHT` (40_build.md rules R100, R111), with its frame: `NODE` at and above the new
`NODE_COUNT` is unchanged. -/
def Obligations.BuildCompletes : Prop :=
  ∀ (s : State) min, s.status.fault = false →
    ∃ t, exec (.build min) s = .next t ∧
      t.status = { code := .ok, treeValid := true, codesValid := false, fault := false } ∧
      (∀ i < 128, t.code[i]? = some Code.absent) ∧ (∀ i, t.nodeCount.toNat ≤ i → t.node[i]? = s.node[i]?) ∧
      t = { s with node := t.node, code := t.code, status := t.status, root := t.root, nodeCount := t.nodeCount }

/-- 40_build.md rule R101: exactly the included symbols get a leaf, in ascending order from index 0, with the weight as the
host wrote it. -/
def Obligations.BuildLeavesAreIncludedSymbols : Prop :=
  ∀ (s t : State) min, s.status.fault = false → exec (.build min) s = .next t →
    (∀ (j k : Nat) (w : Weight), (includedSymbols s.weight min)[j]? = some k → s.weight[k]? = some w →
      t.node[j]? = some { weight := w.setWidth 39, sym := BitVec.ofNat 7 k, leaf := true, left := 255#8, right := 255#8 }) ∧
      ∀ (j : Nat) (nd : Node), (includedSymbols s.weight min).length ≤ j → (treeNodes t.node t.nodeCount)[j]? = some nd → nd.leaf = false

/-- The counts of 40_build.md rule R108. -/
def Obligations.BuildCounts : Prop :=
  ∀ (s t : State) min, s.status.fault = false → exec (.build min) s = .next t →
    t.nodeCount.toNat + 1 = 2 * (includedSymbols s.weight min).length ∧ t.root.toNat + 1 = t.nodeCount.toNat ∧
      1 ≤ (includedSymbols s.weight min).length ∧ (includedSymbols s.weight min).length ≤ 128 ∧
      (min = false → (includedSymbols s.weight min).length = 128)

/-- 40_build.md rules R102, R103, R104: every internal node was made by taking the lowest node of the queue as its left
child and the next lowest as its right; and at the end the queue holds the root alone. -/
def Obligations.BuildMergesTheTwoLowest : Prop :=
  ∀ (s t : State) min, s.status.fault = false → exec (.build min) s = .next t →
    let l := treeNodes t.node t.nodeCount
    (∀ (i : Nat) (nd : Node), l[i]? = some nd → nd.leaf = false →
      inQueueAt l i nd.left.toNat ∧ inQueueAt l i nd.right.toNat ∧ nd.left ≠ nd.right ∧
        (∀ q, inQueueAt l i q → q ≠ nd.left.toNat → lowerNode l nd.left.toNat q) ∧
        (∀ q, inQueueAt l i q → q ≠ nd.left.toNat → q ≠ nd.right.toNat → lowerNode l nd.right.toNat q) ∧
        nd.weight.toNat = weightAt l nd.left.toNat + weightAt l nd.right.toNat ∧ nd.sym = 0#7) ∧
      ∀ j, inQueueAt l l.length j ↔ j = t.root.toNat

/-- The tree BUILD leaves is well formed (10_state.md rule R38) and has the shape of rule R39. -/
def Obligations.BuildTreeIsWellFormed : Prop :=
  ∀ (s t : State) min, s.status.fault = false → exec (.build min) s = .next t →
    wfArena t.node t.nodeCount t.root = true ∧ treeShape t.node t.nodeCount t.root = true

/-- 40_build.md rule R107: every node's weight is the exact sum of the weights of the leaves beneath it, the root's the sum
of the weights of the included symbols. -/
def Obligations.BuildWeightsAreExactSums : Prop :=
  ∀ (s t : State) min, s.status.fault = false → exec (.build min) s = .next t →
    let l := treeNodes t.node t.nodeCount
    (∀ (i : Nat) (nd : Node), l[i]? = some nd → nd.weight.toNat = leafWeightSum l l.length i) ∧
      weightAt l t.root.toNat =
        ((includedSymbols s.weight min).map fun k => (s.weight[k]?.getD 0#32).toNat).sum

/-- 40_build.md rule R109: BUILD is a function of the weights and `MIN` alone. -/
def Obligations.BuildIsDeterministic : Prop :=
  ∀ (s1 s2 t1 t2 : State) min, s1.status.fault = false → s2.status.fault = false → s1.weight = s2.weight →
    exec (.build min) s1 = .next t1 → exec (.build min) s2 = .next t2 →
    treeNodes t1.node t1.nodeCount = treeNodes t2.node t2.nodeCount ∧ t1.root = t2.root ∧ t1.nodeCount = t2.nodeCount

/-- 40_build.md rule R110: between any two nodes of a built tree the three-key order is the order by weight and index. -/
def Obligations.NodeOrderIsWeightThenIndex : Prop :=
  ∀ (s t : State) min, s.status.fault = false → exec (.build min) s = .next t →
    ∀ (a b : Nat) (x y : Node), (treeNodes t.node t.nodeCount)[a]? = some x → (treeNodes t.node t.nodeCount)[b]? = some y → a ≠ b →
      (nodeLess (x, a) (y, b) = true ↔ x.weight.toNat < y.weight.toNat ∨ (x.weight = y.weight ∧ a < b))

/-! ## ASSIGN -/

/-- ASSIGN completes on every well-formed tree: every leaf's symbol gets its path, every other symbol no code (41_assign.md
rules R120, R121, R122), and nothing else changes. -/
def Obligations.AssignCompletes : Prop :=
  ∀ s : State, s.status.fault = false → s.status.treeValid = true → wfArena s.node s.nodeCount s.root = true →
    ∃ t, exec .assign s = .next t ∧
      (∀ j nd, nodeAt s.node s.nodeCount j = some nd → nd.leaf = true →
        ∃ p c, follow s.node s.nodeCount s.root p = some j ∧ t.code[nd.sym.toNat]? = some c ∧ c.valid = true ∧
          c.len.toNat = p.length ∧ ∀ k < 127, c.bits.getLsbD k = p[k]?.getD false) ∧
      (∀ k < 128, (∀ j nd, nodeAt s.node s.nodeCount j = some nd → nd.leaf = true → nd.sym.toNat ≠ k) →
        t.code[k]? = some Code.absent) ∧
      t = { s with code := t.code, status := { code := .ok, treeValid := true, codesValid := true, fault := false } }

/-- Every next state of ASSIGN differs from the state before in `CODE` and `STATUS` alone, and `TREE_VALID` is never changed
(41_assign.md rule R120). -/
def Obligations.AssignFrame : Prop :=
  ∀ s t : State, exec .assign s = .next t →
    t = { s with code := t.code, status := t.status } ∧ t.status.treeValid = s.status.treeValid ∧
      (s.status.fault = true → t.code = s.code) ∧ (s.status.treeValid = false → t.code = s.code)

/-- 41_assign.md rule R124: on any arena, with cycles or without, where the walk from the root meets a missing child ASSIGN
ends in the fault. -/
def Obligations.AssignFaultsOnMissingChild : Prop :=
  ∀ s : State, s.status.fault = false → s.status.treeValid = true → WalkMeetsMissing s.node s.nodeCount s.root →
    ∃ t, exec .assign s = .next t ∧ (∀ k < 128, t.code[k]? = some Code.absent) ∧
      t = { s with code := t.code, status := { code := .invariant, treeValid := true, codesValid := false, fault := true } }

/-- 41_assign.md rule R126: an arena that is not well formed and in which the walk from the root meets no missing child, a
cycle, a shared child, two leaves of one symbol among them, is one ASSIGN is not defined on. -/
def Obligations.AssignStopsOnIllFormedArena : Prop :=
  ∀ s : State, s.status.fault = false → s.status.treeValid = true → ¬WalkMeetsMissing s.node s.nodeCount s.root →
    wfArena s.node s.nodeCount s.root = false → exec .assign s = .refused .assignIllFormed

/-- ASSIGN stops on no well-formed arena, and only under its own name (41_assign.md rule R126). -/
def Obligations.AssignStopsOnNoWellFormedTree : Prop :=
  ∀ (s : State) r, exec .assign s = .refused r →
    r = .assignIllFormed ∧ s.status.fault = false ∧ s.status.treeValid = true ∧
      wfArena s.node s.nodeCount s.root = false

/-- 41_assign.md rule R123: the single leaf gets the empty code, which is not an absent one. -/
def Obligations.AssignSingleLeafGivesEmptyCode : Prop :=
  ∀ (s : State) nd, s.status.fault = false → s.status.treeValid = true → wfArena s.node s.nodeCount s.root = true →
    nodeAt s.node s.nodeCount s.root = some nd → nd.leaf = true →
    ∃ t, exec .assign s = .next t ∧ t.status.code = .ok ∧
      t.code[nd.sym.toNat]? = some { valid := true, len := 0#7, bits := 0#127 } ∧
      ∀ k < 128, k ≠ nd.sym.toNat → t.code[k]? = some Code.absent

/-- 41_assign.md rule R125 (b), (c): the codes are prefix-free, and their lengths. -/
def Obligations.AssignedCodesArePrefixFree : Prop :=
  ∀ s t : State, s.status.fault = false → s.status.treeValid = true → wfArena s.node s.nodeCount s.root = true →
    exec .assign s = .next t →
    (∀ (a b : Nat) (c d : Code), t.code[a]? = some c → t.code[b]? = some d → c.valid = true → d.valid = true → a ≠ b →
      ¬(codeSequence c <+: codeSequence d)) ∧
      ∀ (a : Nat) (c : Code), t.code[a]? = some c → c.valid = true →
        if s.nodeCount = 1#8 then c.len = 0#7 else 1 ≤ c.len.toNat ∧ c.len.toNat ≤ 127

/-- 41_assign.md rule R127: ASSIGN is a function of the current tree's nodes, `ROOT` and `NODE_COUNT` alone. -/
def Obligations.AssignIsDeterministic : Prop :=
  ∀ s1 s2 t1 : State, s1.status.fault = false → s2.status.fault = false → s1.status.treeValid = true →
    s2.status.treeValid = true → s1.nodeCount = s2.nodeCount → s1.root = s2.root →
    treeNodes s1.node s1.nodeCount = treeNodes s2.node s2.nodeCount → exec .assign s1 = .next t1 →
    ∃ t2, exec .assign s2 = .next t2 ∧ t1.code = t2.code ∧ t1.status = t2.status

/-- 60_exceptions.md rule R175: ASSIGN and DECODE before the first BUILD. -/
def Obligations.NoTreeIsRefused : Prop :=
  ∀ s : State, s.status.fault = false → s.status.treeValid = false →
    exec .assign s = .next { s with status := { s.status with code := .noTree } } ∧
      exec .decode s =
        .next { s with decSymbol := 0xFF#8, decConsumed := 0#8, status := { s.status with code := .noTree } }

/-! ## DECODE -/

/-- DECODE completes: where the bits handed to it lead from the root to a leaf, it answers the leaf's symbol and the number
of bits of the way (42_decode.md rules R140, R142), on any arena; nothing else changes. -/
def Obligations.DecodeCompletes : Prop :=
  ∀ (s : State) p j nd, s.status.fault = false → s.status.treeValid = true → s.bitpos.toNat < s.bitlen.toNat →
    s.bitlen.toNat ≤ s.bits.length → s.bitpos.toNat + p.length ≤ s.bitlen.toNat → bitsBegin s p →
    follow s.node s.nodeCount s.root p = some j → nodeAt s.node s.nodeCount j = some nd → nd.leaf = true →
    ∃ t, exec .decode s = .next t ∧ t.decSymbol = nd.sym.setWidth 8 ∧
      (p.length < 256 → t.decConsumed.toNat = p.length) ∧
      t = { s with
        decSymbol := t.decSymbol, decConsumed := t.decConsumed, status := { s.status with code := .ok } }

/-- 42_decode.md rule R143: an empty input is incomplete, and the tree is not looked at. -/
def Obligations.DecodeOfEmptyInputIsIncomplete : Prop :=
  ∀ s : State, s.status.fault = false → s.status.treeValid = true → s.bitpos = s.bitlen →
    s.bitlen.toNat ≤ s.bits.length →
    exec .decode s =
      .next { s with decSymbol := 0xFF#8, decConsumed := 0#8, status := { s.status with code := .incomplete } }

/-- 42_decode.md rule R144: bits that lead to an internal node and no further. -/
def Obligations.DecodeOutOfBitsIsIncomplete : Prop :=
  ∀ (s : State) p j nd, s.status.fault = false → s.status.treeValid = true → s.bitlen.toNat ≤ s.bits.length →
    s.bitpos.toNat + p.length = s.bitlen.toNat → bitsBegin s p →
    follow s.node s.nodeCount s.root p = some j → nodeAt s.node s.nodeCount j = some nd → nd.leaf = false →
    ∃ t, exec .decode s = .next t ∧ (p.length < 256 → t.decConsumed.toNat = p.length) ∧
      t = { s with
        decSymbol := 0xFF#8, decConsumed := t.decConsumed, status := { s.status with code := .incomplete } }

/-- 42_decode.md rule R145: a bit that selects a missing child, and a root that is missing. -/
def Obligations.DecodeFaultsOnMissingChild : Prop :=
  (∀ (s : State) p b j nd, s.status.fault = false → s.status.treeValid = true → s.bitlen.toNat ≤ s.bits.length →
      s.bitpos.toNat + p.length < s.bitlen.toNat → bitsBegin s (p ++ [b]) →
      follow s.node s.nodeCount s.root p = some j → nodeAt s.node s.nodeCount j = some nd → nd.leaf = false →
      nodeAt s.node s.nodeCount (if b then nd.right else nd.left) = none →
      ∃ t, exec .decode s = .next t ∧ (p.length < 255 → t.decConsumed.toNat = p.length + 1) ∧
        t = { s with
          decSymbol := 0xFF#8, decConsumed := t.decConsumed
          status := { s.status with code := .invariant, fault := true } }) ∧
    ∀ s : State, s.status.fault = false → s.status.treeValid = true → s.bitpos.toNat < s.bitlen.toNat →
      s.bitlen.toNat ≤ s.bits.length → (s.root = 255#8 ∨ s.nodeCount.toNat ≤ s.root.toNat) →
      exec .decode s =
        .next { s with
          decSymbol := 0xFF#8, decConsumed := 0#8, status := { s.status with code := .invariant, fault := true } }

/-- 60_exceptions.md rule R176: a window that is none. -/
def Obligations.DecodeOfBadWindowIsRefused : Prop :=
  ∀ s : State, s.status.fault = false → s.status.treeValid = true →
    (s.bitlen.toNat < s.bitpos.toNat ∨ s.bits.length < s.bitlen.toNat) →
    exec .decode s =
      .next { s with decSymbol := 0xFF#8, decConsumed := 0#8, status := { s.status with code := .badOperand } }

/-- 42_decode.md rule R148: a root that is a leaf, with a non-empty input: the leaf's symbol, no bit read. -/
def Obligations.DecodeOnSingleLeafReadsNoBit : Prop :=
  ∀ (s : State) nd, s.status.fault = false → s.status.treeValid = true → s.bitpos.toNat < s.bitlen.toNat →
    s.bitlen.toNat ≤ s.bits.length → nodeAt s.node s.nodeCount s.root = some nd → nd.leaf = true →
    exec .decode s =
      .next { s with
        decSymbol := nd.sym.setWidth 8, decConsumed := 0#8, status := { s.status with code := .ok } }

/-- DECODE always answers a next state, in which only `DEC_SYMBOL`, `DEC_CONSUMED` and `STATUS` differ; the two valid flags
never do, and the latch is set by `ST_INVARIANT` alone (42_decode.md rule R140). -/
def Obligations.DecodeFrame : Prop :=
  ∀ s : State, ∃ t, exec .decode s = .next t ∧
    t = { s with decSymbol := t.decSymbol, decConsumed := t.decConsumed, status := t.status } ∧
    t.status.treeValid = s.status.treeValid ∧ t.status.codesValid = s.status.codesValid ∧
    (s.status.fault = false → (t.status.fault = true ↔ t.status.code = .invariant)) ∧
    (t.status.code ≠ .ok → s.status.fault = false → t.decSymbol = 0xFF#8)

/-- 42_decode.md rule R149: the results are a function of the current tree, `TREE_VALID`, the window and its bits alone. The
rule speaks of one `BITCAP` (00_scope.md rule R13), so the two states have one capacity: with two of them the range check of
rule R141 may answer differently. -/
def Obligations.DecodeIsDeterministic : Prop :=
  ∀ s1 s2 : State, s1.status.fault = false → s2.status.fault = false → s1.bits.length = s2.bits.length →
    s1.status.treeValid = s2.status.treeValid → s1.nodeCount = s2.nodeCount → s1.root = s2.root →
    treeNodes s1.node s1.nodeCount = treeNodes s2.node s2.nodeCount → s1.bitpos = s2.bitpos → s1.bitlen = s2.bitlen →
    (∀ i, s1.bitpos.toNat ≤ i → i < s1.bitlen.toNat → s1.bits[i]? = s2.bits[i]?) →
    ∃ t1 t2, exec .decode s1 = .next t1 ∧ exec .decode s2 = .next t2 ∧ t1.decSymbol = t2.decSymbol ∧
      t1.decConsumed = t2.decConsumed ∧ t1.status.code = t2.status.code

/-- 42_decode.md rule R146: on a well-formed arena no DECODE consumes more than 127 bits, none that ends incomplete more than
126, and none finds an invariant violation. -/
def Obligations.DecodeIsBoundedOnWellFormedTree : Prop :=
  ∀ s t : State, s.status.fault = false → s.status.treeValid = true → wfArena s.node s.nodeCount s.root = true →
    exec .decode s = .next t →
    t.decConsumed.toNat ≤ 127 ∧ (t.status.code = .incomplete → t.decConsumed.toNat ≤ 126) ∧
      t.status.code ≠ .invariant ∧ t.status.fault = false

/-- 42_decode.md rule R147 for one symbol: a leaf's path followed by anything decodes to the leaf, and a proper prefix of a
leaf's path is incomplete. -/
def Obligations.DecodeInvertsThePath : Prop :=
  ∀ (s : State) p j nd, s.status.fault = false → s.status.treeValid = true → wfArena s.node s.nodeCount s.root = true →
    3 ≤ s.nodeCount.toNat → s.bitlen.toNat ≤ s.bits.length → s.bitpos.toNat ≤ s.bitlen.toNat →
    follow s.node s.nodeCount s.root p = some j → nodeAt s.node s.nodeCount j = some nd → nd.leaf = true →
    (bitsBegin s p → s.bitpos.toNat + p.length ≤ s.bitlen.toNat →
      ∃ t, exec .decode s = .next t ∧ t.status.code = .ok ∧ t.decSymbol = nd.sym.setWidth 8 ∧
        t.decConsumed.toNat = p.length) ∧
      ∀ q, q <+: p → q ≠ p → bitsBegin s q → s.bitpos.toNat + q.length = s.bitlen.toNat →
        ∃ t, exec .decode s = .next t ∧ t.status.code = .incomplete ∧ t.decSymbol = 0xFF#8 ∧
          t.decConsumed.toNat = q.length

/-- The round trip of 42_decode.md rule R147: on a tree of two or more leaves with its codes assigned, the symbols of an
encoded stream come back, the terminator last, by the host's loop of DECODE and ADV. -/
def Obligations.EncodedStreamDecodes : Prop :=
  ∀ (s : State) l p, Inv s → s.status.codesValid = true → 3 ≤ s.nodeCount.toNat → encodeSymbols s l = some p →
    s.bitlen.toNat ≤ s.bits.length → s.bitpos.toNat + p.length ≤ s.bitlen.toNat → bitsBegin s p →
    decodeSymbols (l.length + 1) s = some ((l ++ [0#7]).map (·.setWidth 8))

/-! ## Reset -/

/-- Every register and the code table after reset (70_reset_and_hazards.md rule R196, 43_host_access.md rule R157), and the
capacity the spec takes, which is a legal one (00_scope.md rule R13); of `WEIGHT`, `NODE` and `BITS` the spec states no
value. -/
def Obligations.ResetValues : Prop :=
  State.reset.bits.length = 1024 ∧ Config.LegalBitcap State.reset.bits.length ∧
  State.reset.status = { code := .ok, treeValid := false, codesValid := false, fault := false } ∧
    statusBits State.reset.status = 0x00#8 ∧ State.reset.root = 0xFF#8 ∧ State.reset.nodeCount = 0#8 ∧
    State.reset.decSymbol = 0xFF#8 ∧ State.reset.decConsumed = 0#8 ∧ State.reset.bitpos = 0#16 ∧
    State.reset.bitlen = 0#16 ∧ ∀ i < 128, State.reset.code[i]? = some { valid := false, len := 0#7, bits := 0#127 }

/-- The platform's reset of any state (70_reset_and_hazards.md rules R195, R196): the registers and the code table as after
the first reset, and the capacity the same. That the issue order and what has been read stay is the model's own (log
entries 1, 4). -/
def Obligations.PlatformResetCompletes : Prop :=
  ∀ (s : State) rest, s.inbox = .reset :: rest →
    ∃ t, step s = .next t ∧ t.status = { code := .ok, treeValid := false, codesValid := false, fault := false } ∧
      t.root = 0xFF#8 ∧ t.nodeCount = 0#8 ∧ t.decSymbol = 0xFF#8 ∧ t.decConsumed = 0#8 ∧ t.bitpos = 0#16 ∧
      t.bitlen = 0#16 ∧ (∀ i < 128, t.code[i]? = some Code.absent) ∧ t.bits.length = s.bits.length ∧ t.inbox = rest ∧
      t.returned = s.returned

/-- Only reset clears `FAULT` and `TREE_VALID` (70_reset_and_hazards.md rule R195, 60_exceptions.md rule R182). -/
def Obligations.OnlyResetClearsFaultAndTreeValid : Prop :=
  ∀ s t : State, step s = .next t → s.inbox.head? ≠ some .reset →
    (s.status.fault = true → t.status.fault = true) ∧ (s.status.treeValid = true → t.status.treeValid = true)

/-- Nothing but BUILD and reset writes the tree (10_state.md rule R39, 20_memory.md rule R66). -/
def Obligations.OnlyBuildWritesTheTree : Prop :=
  ∀ s t : State, step s = .next t → s.inbox.head? ≠ some .reset →
    (∀ v, s.inbox.head? = some (.host (.wrr 0 v)) → v.extractLsb 7 0 ≠ 0x01#8 ∧ v.extractLsb 7 0 ≠ 0x05#8) →
    t.node = s.node ∧ t.root = s.root ∧ t.nodeCount = s.nodeCount

/-! ## Invariants -/

/-- The invariant holds at reset, of an instance of any legal capacity (00_scope.md rule R13). -/
def Obligations.ResetMeetsTheInvariant : Prop :=
  Inv State.reset ∧ ∀ bitcap epoch, Config.LegalBitcap bitcap → Inv (State.atReset bitcap epoch)

/-- Every step keeps the invariant, from every state that meets it. -/
def Obligations.StepKeepsTheInvariant : Prop := ∀ s t : State, Inv s → step s = .next t → Inv t

/-- Every step keeps the canonical form of the spaces, from every state that has it (10_state.md rule R26). -/
def Obligations.StepKeepsCanonicalCodes : Prop :=
  ∀ s t : State, Memory.wf s = true → step s = .next t → Memory.wf t = true

/-- From a state that meets the invariant ASSIGN always completes or finds no tree, and no command finds an invariant
violation (41_assign.md rule R126, 42_decode.md rule R146, 60_exceptions.md rule R173). -/
def Obligations.NoCommandStopsOrFaultsUnderTheInvariant : Prop :=
  ∀ (s : State) i, Inv s → ∃ t, exec i s = .next t ∧ t.status.code ≠ .invariant ∧ t.status.fault = false

/-- 10_state.md rule R39: in every reachable state a valid tree is well formed and has its shape; and no command but BUILD
writes it. -/
def Obligations.ReachableTreesAreWellFormed : Prop :=
  (∀ s : State, Reachable s → s.status.treeValid = true →
      wfArena s.node s.nodeCount s.root = true ∧
        ∃ L, 1 ≤ L ∧ L ≤ 128 ∧ s.nodeCount.toNat + 1 = 2 * L ∧ s.root.toNat + 1 = s.nodeCount.toNat ∧
          (∀ (i : Nat) (nd : Node), (treeNodes s.node s.nodeCount)[i]? = some nd → (nd.leaf = true ↔ i < L)) ∧
          (∀ (i j : Nat) (x y : Node), i < j → j < L → s.node[i]? = some x → s.node[j]? = some y → x.sym.toNat < y.sym.toNat) ∧
          ∀ x : Node, s.node[0]? = some x → x.sym = 0#7) ∧
    ∀ (s t : State) i, (∀ min, i ≠ .build min) → exec i s = .next t →
      t.node = s.node ∧ t.root = s.root ∧ t.nodeCount = s.nodeCount

/-- 10_state.md rule R40: in every reachable state a valid code is the path of its symbol's leaf, and with `CODES_VALID`
every leaf has its code. -/
def Obligations.ReachableCodesMatchTheTree : Prop :=
  ∀ s : State, Reachable s →
    (∀ (k : Nat) (c : Code), s.code[k]? = some c → c.valid = true →
      ∃ j nd, nodeAt s.node s.nodeCount j = some nd ∧ nd.leaf = true ∧ nd.sym.toNat = k ∧
        follow s.node s.nodeCount s.root (codeSequence c) = some j) ∧
      (s.status.codesValid = true → ∀ j nd, nodeAt s.node s.nodeCount j = some nd → nd.leaf = true →
        ∃ c, s.code[nd.sym.toNat]? = some c ∧ c.valid = true)

/-! ## The capacity -/

/-- 00_scope.md rule R13: the capacity of `BITS` is a parameter of the instance. An instance made with a capacity has it, and
no event, the platform's reset among them, changes it. -/
def Obligations.StepsNeverChangeTheCapacity : Prop :=
  (∀ bitcap epoch, (State.atReset bitcap epoch).bits.length = bitcap) ∧
    ∀ s t : State, step s = .next t → t.bits.length = s.bits.length
end

