-- ==== Sys2Proof/Laws/State.lean ====
section
/-! SUPPORT. One lemma per field per update of the state, each true by unfolding the update once, so that no later proof
unfolds a record update. -/
namespace Sys2Proof.Machine

/-! ## finish -/

@[simp] theorem State.finish_weight (s : State) (c : ResultCode) : (s.finish c).weight = s.weight := rfl
@[simp] theorem State.finish_node (s : State) (c : ResultCode) : (s.finish c).node = s.node := rfl
@[simp] theorem State.finish_code (s : State) (c : ResultCode) : (s.finish c).code = s.code := rfl
@[simp] theorem State.finish_bits (s : State) (c : ResultCode) : (s.finish c).bits = s.bits := rfl
@[simp] theorem State.finish_status (s : State) (c : ResultCode) : (s.finish c).status = { s.status with code := c } := rfl
@[simp] theorem State.finish_root (s : State) (c : ResultCode) : (s.finish c).root = s.root := rfl
@[simp] theorem State.finish_nodeCount (s : State) (c : ResultCode) : (s.finish c).nodeCount = s.nodeCount := rfl
@[simp] theorem State.finish_decSymbol (s : State) (c : ResultCode) : (s.finish c).decSymbol = s.decSymbol := rfl
@[simp] theorem State.finish_decConsumed (s : State) (c : ResultCode) : (s.finish c).decConsumed = s.decConsumed := rfl
@[simp] theorem State.finish_bitpos (s : State) (c : ResultCode) : (s.finish c).bitpos = s.bitpos := rfl
@[simp] theorem State.finish_bitlen (s : State) (c : ResultCode) : (s.finish c).bitlen = s.bitlen := rfl
@[simp] theorem State.finish_inbox (s : State) (c : ResultCode) : (s.finish c).inbox = s.inbox := rfl
@[simp] theorem State.finish_returned (s : State) (c : ResultCode) : (s.finish c).returned = s.returned := rfl
@[simp] theorem State.finish_resets (s : State) (c : ResultCode) : (s.finish c).resets = s.resets := rfl

/-! ## markBuilt -/

@[simp] theorem State.markBuilt_weight (s : State) : s.markBuilt.weight = s.weight := rfl
@[simp] theorem State.markBuilt_node (s : State) : s.markBuilt.node = s.node := rfl
@[simp] theorem State.markBuilt_code (s : State) : s.markBuilt.code = s.code := rfl
@[simp] theorem State.markBuilt_bits (s : State) : s.markBuilt.bits = s.bits := rfl
@[simp] theorem State.markBuilt_status (s : State) : s.markBuilt.status = { s.status with treeValid := true, codesValid := false } := rfl
@[simp] theorem State.markBuilt_root (s : State) : s.markBuilt.root = s.root := rfl
@[simp] theorem State.markBuilt_nodeCount (s : State) : s.markBuilt.nodeCount = s.nodeCount := rfl
@[simp] theorem State.markBuilt_decSymbol (s : State) : s.markBuilt.decSymbol = s.decSymbol := rfl
@[simp] theorem State.markBuilt_decConsumed (s : State) : s.markBuilt.decConsumed = s.decConsumed := rfl
@[simp] theorem State.markBuilt_bitpos (s : State) : s.markBuilt.bitpos = s.bitpos := rfl
@[simp] theorem State.markBuilt_bitlen (s : State) : s.markBuilt.bitlen = s.bitlen := rfl
@[simp] theorem State.markBuilt_inbox (s : State) : s.markBuilt.inbox = s.inbox := rfl
@[simp] theorem State.markBuilt_returned (s : State) : s.markBuilt.returned = s.returned := rfl
@[simp] theorem State.markBuilt_resets (s : State) : s.markBuilt.resets = s.resets := rfl

/-! ## markCodes -/

@[simp] theorem State.markCodes_weight (s : State) (b : Bool) : (s.markCodes b).weight = s.weight := rfl
@[simp] theorem State.markCodes_node (s : State) (b : Bool) : (s.markCodes b).node = s.node := rfl
@[simp] theorem State.markCodes_code (s : State) (b : Bool) : (s.markCodes b).code = s.code := rfl
@[simp] theorem State.markCodes_bits (s : State) (b : Bool) : (s.markCodes b).bits = s.bits := rfl
@[simp] theorem State.markCodes_status (s : State) (b : Bool) : (s.markCodes b).status = { s.status with codesValid := b } := rfl
@[simp] theorem State.markCodes_root (s : State) (b : Bool) : (s.markCodes b).root = s.root := rfl
@[simp] theorem State.markCodes_nodeCount (s : State) (b : Bool) : (s.markCodes b).nodeCount = s.nodeCount := rfl
@[simp] theorem State.markCodes_decSymbol (s : State) (b : Bool) : (s.markCodes b).decSymbol = s.decSymbol := rfl
@[simp] theorem State.markCodes_decConsumed (s : State) (b : Bool) : (s.markCodes b).decConsumed = s.decConsumed := rfl
@[simp] theorem State.markCodes_bitpos (s : State) (b : Bool) : (s.markCodes b).bitpos = s.bitpos := rfl
@[simp] theorem State.markCodes_bitlen (s : State) (b : Bool) : (s.markCodes b).bitlen = s.bitlen := rfl
@[simp] theorem State.markCodes_inbox (s : State) (b : Bool) : (s.markCodes b).inbox = s.inbox := rfl
@[simp] theorem State.markCodes_returned (s : State) (b : Bool) : (s.markCodes b).returned = s.returned := rfl
@[simp] theorem State.markCodes_resets (s : State) (b : Bool) : (s.markCodes b).resets = s.resets := rfl

/-! ## latchFault -/

@[simp] theorem State.latchFault_weight (s : State) : s.latchFault.weight = s.weight := rfl
@[simp] theorem State.latchFault_node (s : State) : s.latchFault.node = s.node := rfl
@[simp] theorem State.latchFault_code (s : State) : s.latchFault.code = s.code := rfl
@[simp] theorem State.latchFault_bits (s : State) : s.latchFault.bits = s.bits := rfl
@[simp] theorem State.latchFault_status (s : State) : s.latchFault.status = { s.status with fault := true } := rfl
@[simp] theorem State.latchFault_root (s : State) : s.latchFault.root = s.root := rfl
@[simp] theorem State.latchFault_nodeCount (s : State) : s.latchFault.nodeCount = s.nodeCount := rfl
@[simp] theorem State.latchFault_decSymbol (s : State) : s.latchFault.decSymbol = s.decSymbol := rfl
@[simp] theorem State.latchFault_decConsumed (s : State) : s.latchFault.decConsumed = s.decConsumed := rfl
@[simp] theorem State.latchFault_bitpos (s : State) : s.latchFault.bitpos = s.bitpos := rfl
@[simp] theorem State.latchFault_bitlen (s : State) : s.latchFault.bitlen = s.bitlen := rfl
@[simp] theorem State.latchFault_inbox (s : State) : s.latchFault.inbox = s.inbox := rfl
@[simp] theorem State.latchFault_returned (s : State) : s.latchFault.returned = s.returned := rfl
@[simp] theorem State.latchFault_resets (s : State) : s.latchFault.resets = s.resets := rfl

/-! ## raiseInvariant -/

@[simp] theorem State.raiseInvariant_weight (s : State) : s.raiseInvariant.weight = s.weight := rfl
@[simp] theorem State.raiseInvariant_node (s : State) : s.raiseInvariant.node = s.node := rfl
@[simp] theorem State.raiseInvariant_code (s : State) : s.raiseInvariant.code = s.code := rfl
@[simp] theorem State.raiseInvariant_bits (s : State) : s.raiseInvariant.bits = s.bits := rfl
@[simp] theorem State.raiseInvariant_status (s : State) : s.raiseInvariant.status = { s.status with code := .invariant, fault := true } := rfl
@[simp] theorem State.raiseInvariant_root (s : State) : s.raiseInvariant.root = s.root := rfl
@[simp] theorem State.raiseInvariant_nodeCount (s : State) : s.raiseInvariant.nodeCount = s.nodeCount := rfl
@[simp] theorem State.raiseInvariant_decSymbol (s : State) : s.raiseInvariant.decSymbol = s.decSymbol := rfl
@[simp] theorem State.raiseInvariant_decConsumed (s : State) : s.raiseInvariant.decConsumed = s.decConsumed := rfl
@[simp] theorem State.raiseInvariant_bitpos (s : State) : s.raiseInvariant.bitpos = s.bitpos := rfl
@[simp] theorem State.raiseInvariant_bitlen (s : State) : s.raiseInvariant.bitlen = s.bitlen := rfl
@[simp] theorem State.raiseInvariant_inbox (s : State) : s.raiseInvariant.inbox = s.inbox := rfl
@[simp] theorem State.raiseInvariant_returned (s : State) : s.raiseInvariant.returned = s.returned := rfl
@[simp] theorem State.raiseInvariant_resets (s : State) : s.raiseInvariant.resets = s.resets := rfl

/-! ## setWeight -/

@[simp] theorem State.setWeight_weight (s : State) (i : Nat) (v : Weight) : (s.setWeight i v).weight = s.weight.setIfInBounds i v := rfl
@[simp] theorem State.setWeight_node (s : State) (i : Nat) (v : Weight) : (s.setWeight i v).node = s.node := rfl
@[simp] theorem State.setWeight_code (s : State) (i : Nat) (v : Weight) : (s.setWeight i v).code = s.code := rfl
@[simp] theorem State.setWeight_bits (s : State) (i : Nat) (v : Weight) : (s.setWeight i v).bits = s.bits := rfl
@[simp] theorem State.setWeight_status (s : State) (i : Nat) (v : Weight) : (s.setWeight i v).status = s.status := rfl
@[simp] theorem State.setWeight_root (s : State) (i : Nat) (v : Weight) : (s.setWeight i v).root = s.root := rfl
@[simp] theorem State.setWeight_nodeCount (s : State) (i : Nat) (v : Weight) : (s.setWeight i v).nodeCount = s.nodeCount := rfl
@[simp] theorem State.setWeight_decSymbol (s : State) (i : Nat) (v : Weight) : (s.setWeight i v).decSymbol = s.decSymbol := rfl
@[simp] theorem State.setWeight_decConsumed (s : State) (i : Nat) (v : Weight) : (s.setWeight i v).decConsumed = s.decConsumed := rfl
@[simp] theorem State.setWeight_bitpos (s : State) (i : Nat) (v : Weight) : (s.setWeight i v).bitpos = s.bitpos := rfl
@[simp] theorem State.setWeight_bitlen (s : State) (i : Nat) (v : Weight) : (s.setWeight i v).bitlen = s.bitlen := rfl
@[simp] theorem State.setWeight_inbox (s : State) (i : Nat) (v : Weight) : (s.setWeight i v).inbox = s.inbox := rfl
@[simp] theorem State.setWeight_returned (s : State) (i : Nat) (v : Weight) : (s.setWeight i v).returned = s.returned := rfl
@[simp] theorem State.setWeight_resets (s : State) (i : Nat) (v : Weight) : (s.setWeight i v).resets = s.resets := rfl

/-! ## setBit -/

@[simp] theorem State.setBit_weight (s : State) (i : Nat) (b : Bool) : (s.setBit i b).weight = s.weight := rfl
@[simp] theorem State.setBit_node (s : State) (i : Nat) (b : Bool) : (s.setBit i b).node = s.node := rfl
@[simp] theorem State.setBit_code (s : State) (i : Nat) (b : Bool) : (s.setBit i b).code = s.code := rfl
@[simp] theorem State.setBit_bits (s : State) (i : Nat) (b : Bool) : (s.setBit i b).bits = s.bits.set i b := rfl
@[simp] theorem State.setBit_status (s : State) (i : Nat) (b : Bool) : (s.setBit i b).status = s.status := rfl
@[simp] theorem State.setBit_root (s : State) (i : Nat) (b : Bool) : (s.setBit i b).root = s.root := rfl
@[simp] theorem State.setBit_nodeCount (s : State) (i : Nat) (b : Bool) : (s.setBit i b).nodeCount = s.nodeCount := rfl
@[simp] theorem State.setBit_decSymbol (s : State) (i : Nat) (b : Bool) : (s.setBit i b).decSymbol = s.decSymbol := rfl
@[simp] theorem State.setBit_decConsumed (s : State) (i : Nat) (b : Bool) : (s.setBit i b).decConsumed = s.decConsumed := rfl
@[simp] theorem State.setBit_bitpos (s : State) (i : Nat) (b : Bool) : (s.setBit i b).bitpos = s.bitpos := rfl
@[simp] theorem State.setBit_bitlen (s : State) (i : Nat) (b : Bool) : (s.setBit i b).bitlen = s.bitlen := rfl
@[simp] theorem State.setBit_inbox (s : State) (i : Nat) (b : Bool) : (s.setBit i b).inbox = s.inbox := rfl
@[simp] theorem State.setBit_returned (s : State) (i : Nat) (b : Bool) : (s.setBit i b).returned = s.returned := rfl
@[simp] theorem State.setBit_resets (s : State) (i : Nat) (b : Bool) : (s.setBit i b).resets = s.resets := rfl

/-! ## setCodes -/

@[simp] theorem State.setCodes_weight (s : State) (t : Vector Code 128) : (s.setCodes t).weight = s.weight := rfl
@[simp] theorem State.setCodes_node (s : State) (t : Vector Code 128) : (s.setCodes t).node = s.node := rfl
@[simp] theorem State.setCodes_code (s : State) (t : Vector Code 128) : (s.setCodes t).code = t := rfl
@[simp] theorem State.setCodes_bits (s : State) (t : Vector Code 128) : (s.setCodes t).bits = s.bits := rfl
@[simp] theorem State.setCodes_status (s : State) (t : Vector Code 128) : (s.setCodes t).status = s.status := rfl
@[simp] theorem State.setCodes_root (s : State) (t : Vector Code 128) : (s.setCodes t).root = s.root := rfl
@[simp] theorem State.setCodes_nodeCount (s : State) (t : Vector Code 128) : (s.setCodes t).nodeCount = s.nodeCount := rfl
@[simp] theorem State.setCodes_decSymbol (s : State) (t : Vector Code 128) : (s.setCodes t).decSymbol = s.decSymbol := rfl
@[simp] theorem State.setCodes_decConsumed (s : State) (t : Vector Code 128) : (s.setCodes t).decConsumed = s.decConsumed := rfl
@[simp] theorem State.setCodes_bitpos (s : State) (t : Vector Code 128) : (s.setCodes t).bitpos = s.bitpos := rfl
@[simp] theorem State.setCodes_bitlen (s : State) (t : Vector Code 128) : (s.setCodes t).bitlen = s.bitlen := rfl
@[simp] theorem State.setCodes_inbox (s : State) (t : Vector Code 128) : (s.setCodes t).inbox = s.inbox := rfl
@[simp] theorem State.setCodes_returned (s : State) (t : Vector Code 128) : (s.setCodes t).returned = s.returned := rfl
@[simp] theorem State.setCodes_resets (s : State) (t : Vector Code 128) : (s.setCodes t).resets = s.resets := rfl

/-! ## setTree -/

@[simp] theorem State.setTree_weight (s : State) (l : List Node) (r : Nat) : (s.setTree l r).weight = s.weight := rfl
@[simp] theorem State.setTree_node (s : State) (l : List Node) (r : Nat) : (s.setTree l r).node = overwriteArena s.node l := rfl
@[simp] theorem State.setTree_code (s : State) (l : List Node) (r : Nat) : (s.setTree l r).code = s.code := rfl
@[simp] theorem State.setTree_bits (s : State) (l : List Node) (r : Nat) : (s.setTree l r).bits = s.bits := rfl
@[simp] theorem State.setTree_status (s : State) (l : List Node) (r : Nat) : (s.setTree l r).status = s.status := rfl
@[simp] theorem State.setTree_root (s : State) (l : List Node) (r : Nat) : (s.setTree l r).root = BitVec.ofNat 8 r := rfl
@[simp] theorem State.setTree_nodeCount (s : State) (l : List Node) (r : Nat) : (s.setTree l r).nodeCount = BitVec.ofNat 8 l.length := rfl
@[simp] theorem State.setTree_decSymbol (s : State) (l : List Node) (r : Nat) : (s.setTree l r).decSymbol = s.decSymbol := rfl
@[simp] theorem State.setTree_decConsumed (s : State) (l : List Node) (r : Nat) : (s.setTree l r).decConsumed = s.decConsumed := rfl
@[simp] theorem State.setTree_bitpos (s : State) (l : List Node) (r : Nat) : (s.setTree l r).bitpos = s.bitpos := rfl
@[simp] theorem State.setTree_bitlen (s : State) (l : List Node) (r : Nat) : (s.setTree l r).bitlen = s.bitlen := rfl
@[simp] theorem State.setTree_inbox (s : State) (l : List Node) (r : Nat) : (s.setTree l r).inbox = s.inbox := rfl
@[simp] theorem State.setTree_returned (s : State) (l : List Node) (r : Nat) : (s.setTree l r).returned = s.returned := rfl
@[simp] theorem State.setTree_resets (s : State) (l : List Node) (r : Nat) : (s.setTree l r).resets = s.resets := rfl

/-! ## setBitpos -/

@[simp] theorem State.setBitpos_weight (s : State) (v : BitVec 16) : (s.setBitpos v).weight = s.weight := rfl
@[simp] theorem State.setBitpos_node (s : State) (v : BitVec 16) : (s.setBitpos v).node = s.node := rfl
@[simp] theorem State.setBitpos_code (s : State) (v : BitVec 16) : (s.setBitpos v).code = s.code := rfl
@[simp] theorem State.setBitpos_bits (s : State) (v : BitVec 16) : (s.setBitpos v).bits = s.bits := rfl
@[simp] theorem State.setBitpos_status (s : State) (v : BitVec 16) : (s.setBitpos v).status = s.status := rfl
@[simp] theorem State.setBitpos_root (s : State) (v : BitVec 16) : (s.setBitpos v).root = s.root := rfl
@[simp] theorem State.setBitpos_nodeCount (s : State) (v : BitVec 16) : (s.setBitpos v).nodeCount = s.nodeCount := rfl
@[simp] theorem State.setBitpos_decSymbol (s : State) (v : BitVec 16) : (s.setBitpos v).decSymbol = s.decSymbol := rfl
@[simp] theorem State.setBitpos_decConsumed (s : State) (v : BitVec 16) : (s.setBitpos v).decConsumed = s.decConsumed := rfl
@[simp] theorem State.setBitpos_bitpos (s : State) (v : BitVec 16) : (s.setBitpos v).bitpos = v := rfl
@[simp] theorem State.setBitpos_bitlen (s : State) (v : BitVec 16) : (s.setBitpos v).bitlen = s.bitlen := rfl
@[simp] theorem State.setBitpos_inbox (s : State) (v : BitVec 16) : (s.setBitpos v).inbox = s.inbox := rfl
@[simp] theorem State.setBitpos_returned (s : State) (v : BitVec 16) : (s.setBitpos v).returned = s.returned := rfl
@[simp] theorem State.setBitpos_resets (s : State) (v : BitVec 16) : (s.setBitpos v).resets = s.resets := rfl

/-! ## setBitlen -/

@[simp] theorem State.setBitlen_weight (s : State) (v : BitVec 16) : (s.setBitlen v).weight = s.weight := rfl
@[simp] theorem State.setBitlen_node (s : State) (v : BitVec 16) : (s.setBitlen v).node = s.node := rfl
@[simp] theorem State.setBitlen_code (s : State) (v : BitVec 16) : (s.setBitlen v).code = s.code := rfl
@[simp] theorem State.setBitlen_bits (s : State) (v : BitVec 16) : (s.setBitlen v).bits = s.bits := rfl
@[simp] theorem State.setBitlen_status (s : State) (v : BitVec 16) : (s.setBitlen v).status = s.status := rfl
@[simp] theorem State.setBitlen_root (s : State) (v : BitVec 16) : (s.setBitlen v).root = s.root := rfl
@[simp] theorem State.setBitlen_nodeCount (s : State) (v : BitVec 16) : (s.setBitlen v).nodeCount = s.nodeCount := rfl
@[simp] theorem State.setBitlen_decSymbol (s : State) (v : BitVec 16) : (s.setBitlen v).decSymbol = s.decSymbol := rfl
@[simp] theorem State.setBitlen_decConsumed (s : State) (v : BitVec 16) : (s.setBitlen v).decConsumed = s.decConsumed := rfl
@[simp] theorem State.setBitlen_bitpos (s : State) (v : BitVec 16) : (s.setBitlen v).bitpos = s.bitpos := rfl
@[simp] theorem State.setBitlen_bitlen (s : State) (v : BitVec 16) : (s.setBitlen v).bitlen = v := rfl
@[simp] theorem State.setBitlen_inbox (s : State) (v : BitVec 16) : (s.setBitlen v).inbox = s.inbox := rfl
@[simp] theorem State.setBitlen_returned (s : State) (v : BitVec 16) : (s.setBitlen v).returned = s.returned := rfl
@[simp] theorem State.setBitlen_resets (s : State) (v : BitVec 16) : (s.setBitlen v).resets = s.resets := rfl

/-! ## setDecoded -/

@[simp] theorem State.setDecoded_weight (s : State) (x n : BitVec 8) : (s.setDecoded x n).weight = s.weight := rfl
@[simp] theorem State.setDecoded_node (s : State) (x n : BitVec 8) : (s.setDecoded x n).node = s.node := rfl
@[simp] theorem State.setDecoded_code (s : State) (x n : BitVec 8) : (s.setDecoded x n).code = s.code := rfl
@[simp] theorem State.setDecoded_bits (s : State) (x n : BitVec 8) : (s.setDecoded x n).bits = s.bits := rfl
@[simp] theorem State.setDecoded_status (s : State) (x n : BitVec 8) : (s.setDecoded x n).status = s.status := rfl
@[simp] theorem State.setDecoded_root (s : State) (x n : BitVec 8) : (s.setDecoded x n).root = s.root := rfl
@[simp] theorem State.setDecoded_nodeCount (s : State) (x n : BitVec 8) : (s.setDecoded x n).nodeCount = s.nodeCount := rfl
@[simp] theorem State.setDecoded_decSymbol (s : State) (x n : BitVec 8) : (s.setDecoded x n).decSymbol = x := rfl
@[simp] theorem State.setDecoded_decConsumed (s : State) (x n : BitVec 8) : (s.setDecoded x n).decConsumed = n := rfl
@[simp] theorem State.setDecoded_bitpos (s : State) (x n : BitVec 8) : (s.setDecoded x n).bitpos = s.bitpos := rfl
@[simp] theorem State.setDecoded_bitlen (s : State) (x n : BitVec 8) : (s.setDecoded x n).bitlen = s.bitlen := rfl
@[simp] theorem State.setDecoded_inbox (s : State) (x n : BitVec 8) : (s.setDecoded x n).inbox = s.inbox := rfl
@[simp] theorem State.setDecoded_returned (s : State) (x n : BitVec 8) : (s.setDecoded x n).returned = s.returned := rfl
@[simp] theorem State.setDecoded_resets (s : State) (x n : BitVec 8) : (s.setDecoded x n).resets = s.resets := rfl

/-! ## give -/

@[simp] theorem State.give_weight (s : State) (v : HostValue) : (s.give v).weight = s.weight := rfl
@[simp] theorem State.give_node (s : State) (v : HostValue) : (s.give v).node = s.node := rfl
@[simp] theorem State.give_code (s : State) (v : HostValue) : (s.give v).code = s.code := rfl
@[simp] theorem State.give_bits (s : State) (v : HostValue) : (s.give v).bits = s.bits := rfl
@[simp] theorem State.give_status (s : State) (v : HostValue) : (s.give v).status = s.status := rfl
@[simp] theorem State.give_root (s : State) (v : HostValue) : (s.give v).root = s.root := rfl
@[simp] theorem State.give_nodeCount (s : State) (v : HostValue) : (s.give v).nodeCount = s.nodeCount := rfl
@[simp] theorem State.give_decSymbol (s : State) (v : HostValue) : (s.give v).decSymbol = s.decSymbol := rfl
@[simp] theorem State.give_decConsumed (s : State) (v : HostValue) : (s.give v).decConsumed = s.decConsumed := rfl
@[simp] theorem State.give_bitpos (s : State) (v : HostValue) : (s.give v).bitpos = s.bitpos := rfl
@[simp] theorem State.give_bitlen (s : State) (v : HostValue) : (s.give v).bitlen = s.bitlen := rfl
@[simp] theorem State.give_inbox (s : State) (v : HostValue) : (s.give v).inbox = s.inbox := rfl
@[simp] theorem State.give_returned (s : State) (v : HostValue) : (s.give v).returned = s.returned ++ [v] := rfl
@[simp] theorem State.give_resets (s : State) (v : HostValue) : (s.give v).resets = s.resets := rfl

/-! ## withInbox -/

@[simp] theorem State.withInbox_weight (s : State) (l : List Input) : (s.withInbox l).weight = s.weight := rfl
@[simp] theorem State.withInbox_node (s : State) (l : List Input) : (s.withInbox l).node = s.node := rfl
@[simp] theorem State.withInbox_code (s : State) (l : List Input) : (s.withInbox l).code = s.code := rfl
@[simp] theorem State.withInbox_bits (s : State) (l : List Input) : (s.withInbox l).bits = s.bits := rfl
@[simp] theorem State.withInbox_status (s : State) (l : List Input) : (s.withInbox l).status = s.status := rfl
@[simp] theorem State.withInbox_root (s : State) (l : List Input) : (s.withInbox l).root = s.root := rfl
@[simp] theorem State.withInbox_nodeCount (s : State) (l : List Input) : (s.withInbox l).nodeCount = s.nodeCount := rfl
@[simp] theorem State.withInbox_decSymbol (s : State) (l : List Input) : (s.withInbox l).decSymbol = s.decSymbol := rfl
@[simp] theorem State.withInbox_decConsumed (s : State) (l : List Input) : (s.withInbox l).decConsumed = s.decConsumed := rfl
@[simp] theorem State.withInbox_bitpos (s : State) (l : List Input) : (s.withInbox l).bitpos = s.bitpos := rfl
@[simp] theorem State.withInbox_bitlen (s : State) (l : List Input) : (s.withInbox l).bitlen = s.bitlen := rfl
@[simp] theorem State.withInbox_inbox (s : State) (l : List Input) : (s.withInbox l).inbox = l := rfl
@[simp] theorem State.withInbox_returned (s : State) (l : List Input) : (s.withInbox l).returned = s.returned := rfl
@[simp] theorem State.withInbox_resets (s : State) (l : List Input) : (s.withInbox l).resets = s.resets := rfl

/-! ## platformReset and atReset -/

@[simp] theorem State.atReset_weight (c e : Nat) : (State.atReset c e).weight = tabulate 128 (Config.resetWeight e) := rfl
@[simp] theorem State.atReset_node (c e : Nat) : (State.atReset c e).node = tabulate 255 (Config.resetNode e) := rfl
@[simp] theorem State.atReset_code (c e : Nat) : (State.atReset c e).code = emptyCodes := rfl
@[simp] theorem State.atReset_bits (c e : Nat) : (State.atReset c e).bits = elements c (Config.resetBit e) := rfl
@[simp] theorem State.atReset_status (c e : Nat) : (State.atReset c e).status = { code := .ok, treeValid := false, codesValid := false, fault := false } := rfl
@[simp] theorem State.atReset_root (c e : Nat) : (State.atReset c e).root = nullIdx := rfl
@[simp] theorem State.atReset_nodeCount (c e : Nat) : (State.atReset c e).nodeCount = 0#8 := rfl
@[simp] theorem State.atReset_decSymbol (c e : Nat) : (State.atReset c e).decSymbol = 0xFF#8 := rfl
@[simp] theorem State.atReset_decConsumed (c e : Nat) : (State.atReset c e).decConsumed = 0#8 := rfl
@[simp] theorem State.atReset_bitpos (c e : Nat) : (State.atReset c e).bitpos = 0#16 := rfl
@[simp] theorem State.atReset_bitlen (c e : Nat) : (State.atReset c e).bitlen = 0#16 := rfl
@[simp] theorem State.atReset_inbox (c e : Nat) : (State.atReset c e).inbox = [] := rfl
@[simp] theorem State.atReset_returned (c e : Nat) : (State.atReset c e).returned = [] := rfl
@[simp] theorem State.atReset_resets (c e : Nat) : (State.atReset c e).resets = e := rfl

@[simp] theorem State.platformReset_weight (s : State) : s.platformReset.weight = tabulate 128 (Config.resetWeight (s.resets + 1)) := rfl
@[simp] theorem State.platformReset_node (s : State) : s.platformReset.node = tabulate 255 (Config.resetNode (s.resets + 1)) := rfl
@[simp] theorem State.platformReset_code (s : State) : s.platformReset.code = emptyCodes := rfl
@[simp] theorem State.platformReset_bits (s : State) : s.platformReset.bits = elements s.bits.length (Config.resetBit (s.resets + 1)) := rfl
@[simp] theorem State.platformReset_status (s : State) : s.platformReset.status = { code := .ok, treeValid := false, codesValid := false, fault := false } := rfl
@[simp] theorem State.platformReset_root (s : State) : s.platformReset.root = nullIdx := rfl
@[simp] theorem State.platformReset_nodeCount (s : State) : s.platformReset.nodeCount = 0#8 := rfl
@[simp] theorem State.platformReset_decSymbol (s : State) : s.platformReset.decSymbol = 0xFF#8 := rfl
@[simp] theorem State.platformReset_decConsumed (s : State) : s.platformReset.decConsumed = 0#8 := rfl
@[simp] theorem State.platformReset_bitpos (s : State) : s.platformReset.bitpos = 0#16 := rfl
@[simp] theorem State.platformReset_bitlen (s : State) : s.platformReset.bitlen = 0#16 := rfl
@[simp] theorem State.platformReset_inbox (s : State) : s.platformReset.inbox = s.inbox := rfl
@[simp] theorem State.platformReset_returned (s : State) : s.platformReset.returned = s.returned := rfl
@[simp] theorem State.platformReset_resets (s : State) : s.platformReset.resets = s.resets + 1 := rfl

/-- Two states are equal when all their fields are. -/
theorem State.eq_of_fields {s t : State} (h1 : s.weight = t.weight) (h2 : s.node = t.node) (h3 : s.code = t.code)
    (h4 : s.bits = t.bits) (h5 : s.status = t.status) (h6 : s.root = t.root) (h7 : s.nodeCount = t.nodeCount)
    (h8 : s.decSymbol = t.decSymbol) (h9 : s.decConsumed = t.decConsumed) (h10 : s.bitpos = t.bitpos)
    (h11 : s.bitlen = t.bitlen) (h12 : s.inbox = t.inbox) (h13 : s.returned = t.returned) (h14 : s.resets = t.resets) :
    s = t := by
  cases s; cases t; simp_all

end Sys2Proof.Machine
end

