-- ==== Sys2Proof/Laws/Spaces.lean ====
section
/-! SUPPORT. The spaces: what `elements`, `tabulate` and a new arena hold element by element, reads after writes, the missing-child
check, and that every operation keeps the canonical form of `CODE`. -/
namespace Sys2Proof
namespace Machine

theorem elementsFrom_getElem? {α : Type} (f : Nat → α) (n i j : Nat) :
    (elementsFrom f n i)[j]? = if j < n then some (f (i + j)) else none := by
  induction n generalizing i j with
  | zero => simp [elementsFrom]
  | succ n ih => cases j <;> simp [elementsFrom, ih, Nat.add_comm, Nat.add_left_comm]

theorem elements_getElem? {α : Type} (n : Nat) (f : Nat → α) (i : Nat) :
    (elements n f)[i]? = if i < n then some (f i) else none := by
  simpa [elements] using elementsFrom_getElem? f n 0 i

theorem tabulate_getElem? {α : Type} (n : Nat) (f : Nat → α) (i : Nat) :
    (tabulate n f)[i]? = if i < n then some (f i) else none := by
  simpa [tabulate] using elements_getElem? n f i

/-! ## `WEIGHT` and `BITS`: a read after a write -/

theorem setWeight_read_same (s : State) {i : Nat} (v : Weight) (h : i < 128) :
    (s.setWeight i v).weight[i]? = some v := by
  simp [h]

theorem setWeight_read_other (s : State) {i j : Nat} (v : Weight) (h : j ≠ i) :
    (s.setWeight i v).weight[j]? = s.weight[j]? := by
  simp [Ne.symm h]

theorem setBit_read_same (s : State) {i : Nat} (b : Bool) (h : i < s.bits.length) :
    (s.setBit i b).bits[i]? = some b := by
  simp [h]

theorem setBit_read_other (s : State) {i j : Nat} (b : Bool) (h : j ≠ i) :
    (s.setBit i b).bits[j]? = s.bits[j]? := by
  simp [Ne.symm h]

/-! ## `NODE` -/

theorem overwriteArena_toList (old : Vector Node 255) (l : List Node) (hl : l.length ≤ 255) :
    (overwriteArena old l).toList = l ++ old.toList.drop l.length := by
  simp only [overwriteArena, Vector.toList_mk]
  exact List.take_of_length_le (by simp; omega)

/-- A new tree's nodes stand at the bottom of the arena (40_build.md rule R100). -/
theorem overwriteArena_low (old : Vector Node 255) (l : List Node) (hl : l.length ≤ 255) {i : Nat} (h : i < l.length) :
    (overwriteArena old l)[i]? = l[i]? := by
  rw [← Vector.getElem?_toList, overwriteArena_toList old l hl, List.getElem?_append_left h]

/-- Elements above a new tree keep what they held (10_state.md rule R25). -/
theorem overwriteArena_high (old : Vector Node 255) (l : List Node) (hl : l.length ≤ 255) {i : Nat} (h : l.length ≤ i) :
    (overwriteArena old l)[i]? = old[i]? := by
  rw [← Vector.getElem?_toList, overwriteArena_toList old l hl, List.getElem?_append_right h, List.getElem?_drop,
    Nat.add_sub_cancel' h, Vector.getElem?_toList]

theorem treeNodes_length (N : Vector Node 255) (n : NodeIdx) : (treeNodes N n).length = n.toNat := by
  have : n.toNat < 256 := n.isLt
  simp [treeNodes]; omega

theorem treeNodes_getElem? (N : Vector Node 255) (n : NodeIdx) {i : Nat} (h : i < n.toNat) :
    (treeNodes N n)[i]? = N[i]? := by
  simp [treeNodes, h]

/-- What the missing-child check says: the node is there exactly when the index is below `NODE_COUNT` (41_assign.md rule
R124). `NULL` is never below it. -/
theorem nodeAt_eq (N : Vector Node 255) (n i : NodeIdx) :
    nodeAt N n i = (treeNodes N n)[i.toNat]? := by
  have hn : n.toNat < 256 := n.isLt
  by_cases h : i.toNat < n.toNat
  · have hi : i ≠ nullIdx := by rintro rfl; simp at h; omega
    rw [treeNodes_getElem? N n h, nodeAt, if_neg (by simp [hi]; omega)]
  · rw [nodeAt, if_pos (.inr (by omega)), List.getElem?_eq_none (by rw [treeNodes_length]; omega)]

theorem nodeAt_isSome_iff (N : Vector Node 255) (n i : NodeIdx) :
    (nodeAt N n i).isSome = true ↔ i.toNat < n.toNat := by
  rw [nodeAt_eq, ← treeNodes_length N n]; simp

/-! ## `CODE`: the canonical form -/

theorem emptyCodes_getElem? (i : Nat) : emptyCodes[i]? = if i < 128 then some Code.absent else none :=
  tabulate_getElem? 128 _ i

theorem sequenceValue_lt (p : List Bool) : sequenceValue p < 2 ^ p.length := by
  induction p with
  | nil => simp [sequenceValue]
  | cons b p ih => cases b <;> simp [sequenceValue, Nat.pow_succ] <;> omega

/-- `bits[k]` of a packed code is its k-th bit, and 0 above (41_assign.md rule R122). -/
theorem sequenceValue_testBit (p : List Bool) (k : Nat) : (sequenceValue p).testBit k = p[k]?.getD false := by
  induction p generalizing k with
  | nil => simp [sequenceValue]
  | cons b p ih =>
    cases k with
    | zero => cases b <;> simp [sequenceValue, Nat.testBit_zero]
    | succ k =>
      have h : (b.toNat + 2 * sequenceValue p) / 2 = sequenceValue p := by cases b <;> simp; omega
      simp only [sequenceValue, Nat.testBit_succ, h, ih, List.getElem?_cons_succ]

theorem packCode_bits (p : List Bool) (hp : p.length ≤ 127) (k : Nat) :
    (packCode p).bits.getLsbD k = p[k]?.getD false := by
  simp only [packCode, BitVec.getLsbD_ofNat, sequenceValue_testBit]
  by_cases h : k < 127
  · simp [h]
  · simp [h, List.getElem?_eq_none (show p.length ≤ k by omega)]

theorem packCode_len (p : List Bool) (hp : p.length ≤ 127) : (packCode p).len.toNat = p.length := by
  simp [packCode]; omega

/-- A code of legal length packs and reads back whole (10_state.md rule R26). -/
theorem codeSequence_packCode (p : List Bool) (hp : p.length ≤ 127) : codeSequence (packCode p) = p := by
  apply List.ext_getElem?
  intro k
  by_cases h : k < p.length
  · simp [codeSequence, packCode_len p hp, packCode_bits p hp, h]
  · simp [codeSequence, packCode_len p hp, h]

theorem packCode_canonical (p : List Bool) (hp : p.length ≤ 127) : codeCanonical (packCode p) = true := by
  have hb : (packCode p).bits.toNat ≤ sequenceValue p := by simp [packCode]; exact Nat.mod_le _ _
  have := sequenceValue_lt p
  have hlt : (packCode p).bits.toNat < 2 ^ (packCode p).len.toNat := by rw [packCode_len p hp]; omega
  simp only [codeCanonical, hlt, decide_true, Bool.true_and]
  simp [packCode]

theorem memory_wf_iff (s : State) :
    Memory.wf s = true ↔ ∀ (i : Nat) (c : Code), s.code[i]? = some c → codeCanonical c = true := by
  simp only [Memory.wf, List.all_eq_true]
  constructor
  · intro h i c hc
    exact h c (by rw [Vector.mem_toList_iff]; exact Vector.mem_of_getElem? hc)
  · intro h c hc
    obtain ⟨i, hi⟩ := List.mem_iff_getElem?.mp hc
    exact h i c (by simpa using hi)

theorem memory_wf_of_code {s t : State} (h : t.code = s.code) : Memory.wf t = Memory.wf s := by
  simp [Memory.wf, h]

theorem emptyCodes_canonical {i : Nat} {c : Code} (h : emptyCodes[i]? = some c) : codeCanonical c = true := by
  rw [emptyCodes_getElem?] at h
  split at h
  · cases h; decide
  · cases h

/-- Writing codes of legal length keeps the canonical form (41_assign.md rule R122). -/
theorem codeTable_canonical (l : List (Symbol × List Bool)) (hl : ∀ e ∈ l, e.2.length ≤ 127) {i : Nat} {c : Code}
    (h : (codeTable l)[i]? = some c) : codeCanonical c = true := by
  suffices ∀ t : Vector Code 128, (∀ (i : Nat) (c : Code), t[i]? = some c → codeCanonical c = true) →
      ∀ (i : Nat) (c : Code), (l.foldl (fun t e => t.setIfInBounds e.1.toNat (packCode e.2)) t)[i]? = some c → codeCanonical c = true from
    this emptyCodes (fun _ _ h => emptyCodes_canonical h) i c h
  clear h
  induction l with
  | nil => exact fun t ht => ht
  | cons e l ih =>
    intro t ht
    refine ih (fun e he => hl e (List.mem_cons_of_mem _ he)) _ fun j d hd => ?_
    rw [Vector.getElem?_setIfInBounds] at hd
    split at hd
    · split at hd
      · cases hd; exact packCode_canonical _ (hl e List.mem_cons_self)
      · cases hd
    · exact ht j d hd

/-! Every operation over the spaces keeps the canonical form. -/

theorem setWeight_wf (s : State) (i : Nat) (v : Weight) : Memory.wf (s.setWeight i v) = Memory.wf s := rfl

theorem setBit_wf (s : State) (i : Nat) (b : Bool) : Memory.wf (s.setBit i b) = Memory.wf s := rfl

theorem setTree_wf (s : State) (l : List Node) (r : Nat) : Memory.wf (s.setTree l r) = Memory.wf s := rfl

theorem setCodes_empty_wf (s : State) : Memory.wf (s.setCodes emptyCodes) = true :=
  (memory_wf_iff _).mpr fun _ _ h => emptyCodes_canonical h

theorem setCodes_table_wf (s : State) (l : List (Symbol × List Bool)) (hl : ∀ e ∈ l, e.2.length ≤ 127) :
    Memory.wf (s.setCodes (codeTable l)) = true :=
  (memory_wf_iff _).mpr fun _ _ h => codeTable_canonical l hl h

theorem atReset_wf (c e : Nat) : Memory.wf (State.atReset c e) = true :=
  (memory_wf_iff _).mpr fun _ _ h => emptyCodes_canonical h

theorem platformReset_wf (s : State) : Memory.wf s.platformReset = true := atReset_wf s.bits.length (s.resets + 1)

end Machine
end Sys2Proof
end

