-- ==== Sys2Proof/Laws/Arena.lean ====
section
/-! SUPPORT. Walks over the arena: what a step along a path is, and how the walk of ASSIGN ends. -/
namespace Sys2Proof.Machine

theorem nodeAt_mem {N : Vector Node 255} {n i : NodeIdx} {nd : Node} (h : nodeAt N n i = some nd) :
    nd ∈ treeNodes N n := by
  rw [nodeAt_eq] at h; exact List.mem_of_getElem? h

theorem nodeAt_eq_none_iff (N : Vector Node 255) (n i : NodeIdx) : nodeAt N n i = none ↔ n.toNat ≤ i.toNat := by
  rw [nodeAt_eq, List.getElem?_eq_none_iff, treeNodes_length]

theorem follow_nil {N : Vector Node 255} {n i j : NodeIdx} :
    follow N n i [] = some j ↔ j = i ∧ ∃ nd, nodeAt N n i = some nd := by
  simp only [follow, Option.map_eq_some_iff]
  constructor
  · rintro ⟨nd, h, rfl⟩; exact ⟨rfl, nd, h⟩
  · rintro ⟨rfl, nd, h⟩; exact ⟨nd, h, rfl⟩

/-- A step of a path goes from an internal node to the child the bit selects (10_state.md rule R38). -/
theorem follow_cons {N : Vector Node 255} {n i j : NodeIdx} {b : Bool} {p : List Bool} :
    follow N n i (b :: p) = some j ↔
      ∃ nd, nodeAt N n i = some nd ∧ nd.leaf = false ∧ follow N n (child nd b) p = some j := by
  simp only [follow]
  cases h : nodeAt N n i with
  | none => simp
  | some nd => cases hl : nd.leaf <;> simp [hl]

/-- Paths compose. -/
theorem follow_append {N : Vector Node 255} {n i j : NodeIdx} {p q : List Bool} (h : follow N n i p = some j) :
    follow N n i (p ++ q) = follow N n j q := by
  induction p generalizing i with
  | nil => obtain ⟨rfl, -⟩ := follow_nil.mp h; rfl
  | cons b p ih =>
    obtain ⟨nd, hn, hl, hf⟩ := follow_cons.mp h
    rw [List.cons_append, follow, hn]
    simpa [hl] using ih hf

/-! ## The walk of ASSIGN -/

/-- What the bounded walk can answer: with a missing child the walk of 41_assign.md rule R122 meets one, and with leaves it
returns. -/
theorem walk_ends (N : Vector Node 255) (n : NodeIdx) (fuel : Nat) (i : NodeIdx) (p : List Bool) :
    (walk N n fuel i p = .missing → WalkMeetsMissing N n i) ∧
      ∀ l, walk N n fuel i p = .leaves l → WalkReturns N n i := by
  induction fuel generalizing i p with
  | zero =>
    cases hi : nodeAt N n i with
    | none => exact ⟨fun _ => .here i hi, fun l h => by simp [walk, hi] at h⟩
    | some nd => simp [walk, hi]
  | succ fuel ih =>
    cases hi : nodeAt N n i with
    | none => exact ⟨fun _ => .here i hi, fun l h => by simp [walk, hi] at h⟩
    | some nd =>
      cases hl : nd.leaf with
      | true => exact ⟨fun h => by simp [walk, hi, hl] at h, fun _ _ => .leaf i nd hi hl⟩
      | false =>
        obtain ⟨hml, hrl⟩ := ih nd.left (p ++ [false])
        obtain ⟨hmr, hrr⟩ := ih nd.right (p ++ [true])
        simp only [walk, hi, hl, Bool.false_eq_true, if_false]
        cases hwl : walk N n fuel nd.left (p ++ [false]) with
        | missing => exact ⟨fun _ => .left i nd hi hl (hml hwl), nofun⟩
        | endless => exact ⟨nofun, nofun⟩
        | leaves l =>
          cases hwr : walk N n fuel nd.right (p ++ [true]) with
          | missing => exact ⟨fun _ => .right i nd hi hl (hrl l hwl) (hmr hwr), nofun⟩
          | endless => exact ⟨nofun, nofun⟩
          | leaves r => exact ⟨nofun, fun _ _ => .node i nd hi hl (hrl l hwl) (hrr r hwr)⟩

/-- What a walk answers for an internal node, from what the walks of its subtrees answer. -/
theorem walk_internal {N : Vector Node 255} {n i : NodeIdx} {nd : Node} (hn : nodeAt N n i = some nd)
    (hl : nd.leaf = false) (fuel : Nat) (p : List Bool) :
    (walk N n (fuel + 1) i p = .missing ↔ walk N n fuel nd.left (p ++ [false]) = .missing ∨
        ((∃ l, walk N n fuel nd.left (p ++ [false]) = .leaves l) ∧ walk N n fuel nd.right (p ++ [true]) = .missing)) ∧
      (walk N n (fuel + 1) i p = .endless ↔ walk N n fuel nd.left (p ++ [false]) = .endless ∨
        ((∃ l, walk N n fuel nd.left (p ++ [false]) = .leaves l) ∧ walk N n fuel nd.right (p ++ [true]) = .endless)) := by
  simp only [walk, hn, hl, Bool.false_eq_true, if_false]
  cases walk N n fuel nd.left (p ++ [false]) <;> cases walk N n fuel nd.right (p ++ [true]) <;> simp

/-- How a walk ends, but for the codes, does not depend on the sequence accumulated before. -/
theorem walk_sequence (N : Vector Node 255) (n : NodeIdx) (fuel : Nat) (i : NodeIdx) (p q : List Bool) :
    (walk N n fuel i p = .missing ↔ walk N n fuel i q = .missing) ∧
      (walk N n fuel i p = .endless ↔ walk N n fuel i q = .endless) := by
  induction fuel generalizing i p q with
  | zero => cases hi : nodeAt N n i <;> simp [walk, hi]
  | succ fuel ih =>
    cases hi : nodeAt N n i with
    | none => simp [walk, hi]
    | some nd =>
      cases hl : nd.leaf with
      | true => simp [walk, hi, hl]
      | false =>
        have leaves_iff : ∀ r : WalkEnd, (∃ l, r = .leaves l) ↔ r ≠ .missing ∧ r ≠ .endless := by
          intro r; cases r <;> simp
        simp only [walk_internal hi hl, leaves_iff, ne_eq, (ih nd.left (p ++ [false]) (q ++ [false])).1,
          (ih nd.left (p ++ [false]) (q ++ [false])).2, (ih nd.right (p ++ [true]) (q ++ [true])).1,
          (ih nd.right (p ++ [true]) (q ++ [true])).2, and_self]

/-- More fuel does not change an answer that is one. -/
theorem walk_succ {N : Vector Node 255} {n i : NodeIdx} {fuel : Nat} {p : List Bool} {r : WalkEnd}
    (h : walk N n fuel i p = r) (hr : r ≠ .endless) : walk N n (fuel + 1) i p = r := by
  induction fuel generalizing i p r with
  | zero => cases hi : nodeAt N n i <;> simp_all [walk]
  | succ fuel ih =>
    rw [walk] at h ⊢
    cases hi : nodeAt N n i with
    | none => simpa [hi] using h
    | some nd =>
      simp only [hi] at h ⊢
      split
      · simp_all
      · rename_i hl
        simp only [hl, Bool.false_eq_true, if_false] at h
        cases hwl : walk N n fuel nd.left (p ++ [false]) with
        | missing => rw [ih hwl nofun]; simpa [hwl] using h
        | endless => simp [hwl] at h; exact absurd h.symm hr
        | leaves l =>
          rw [ih hwl nofun]
          cases hwr : walk N n fuel nd.right (p ++ [true]) with
          | missing => rw [ih hwr nofun]; simpa [hwl, hwr] using h
          | endless => simp [hwl, hwr] at h; exact absurd h.symm hr
          | leaves r => rw [ih hwr nofun]; simpa [hwl, hwr] using h

theorem walk_mono {N : Vector Node 255} {n i : NodeIdx} {fuel fuel' : Nat} {p : List Bool} {r : WalkEnd}
    (h : walk N n fuel i p = r) (hr : r ≠ .endless) (hf : fuel ≤ fuel') : walk N n fuel' i p = r := by
  induction hf with
  | refl => exact h
  | step _ ih => exact walk_succ ih hr

/-- The least fuel that is enough for node `i` is `k + 1`. -/
def leastFuel (N : Vector Node 255) (n : NodeIdx) (k : Nat) (i : NodeIdx) : Prop :=
  walk N n (k + 1) i [] ≠ .endless ∧ walk N n k i [] = .endless

/-- A node that needs fuel has a child that needs one less. -/
theorem leastFuel_child {N : Vector Node 255} {n i : NodeIdx} {k : Nat} (h : leastFuel N n (k + 1) i) :
    ∃ c, leastFuel N n k c := by
  obtain ⟨h1, h2⟩ := h
  cases hi : nodeAt N n i with
  | none => simp [walk, hi] at h2
  | some nd =>
    cases hl : nd.leaf with
    | true => simp [walk, hi, hl] at h2
    | false =>
      rw [ne_eq, (walk_internal hi hl _ _).2] at h1
      rw [(walk_internal hi hl _ _).2] at h2
      by_cases hle : walk N n k nd.left ([] ++ [false]) = .endless
      · exact ⟨nd.left, fun h => h1 (.inl ((walk_sequence ..).2.mp h)), (walk_sequence ..).2.mp hle⟩
      · obtain h2 | ⟨⟨l, hll⟩, h2⟩ := h2
        · exact absurd h2 hle
        · exact ⟨nd.right, fun h => h1 (.inr ⟨⟨l, walk_succ hll nofun⟩, (walk_sequence ..).2.mp h⟩),
            (walk_sequence ..).2.mp h2⟩

theorem leastFuel_below {N : Vector Node 255} {n : NodeIdx} {k j : Nat} (h : ∃ i, leastFuel N n k i) (hj : j ≤ k) :
    ∃ i, leastFuel N n j i := by
  induction k with
  | zero =>
    obtain rfl : j = 0 := by omega
    exact h
  | succ k ih =>
    rcases Nat.lt_or_ge k j with hk | hk
    · obtain rfl : j = k + 1 := by omega
      exact h
    · exact ih (h.elim fun _ hi => leastFuel_child hi) hk

/-- No node needs more fuel than there are indices that pass the missing-child check: the nodes that need 1, 2, ... are all
different. -/
theorem leastFuel_lt {N : Vector Node 255} {n : NodeIdx} {k : Nat} (h : ∃ i, leastFuel N n k i) : k < 255 := by
  choose f hf using fun j : Fin (k + 1) => leastFuel_below h (Nat.le_of_lt_succ j.isLt)
  have hlt : ∀ j, (f j).toNat < 255 := by
    intro j
    have h2 := (hf j).2
    have : ∃ nd, nodeAt N n (f j) = some nd := by
      cases hn : nodeAt N n (f j) with
      | none => cases hj : j.val <;> simp [walk, hn, hj] at h2
      | some nd => exact ⟨nd, rfl⟩
    obtain ⟨nd, hn⟩ := this
    have := (nodeAt_isSome_iff N n (f j)).mp (by simp [hn])
    have := n.isLt
    omega
  have hinj : Function.Injective fun j => (⟨(f j).toNat, hlt j⟩ : Fin 255) := by
    intro a b hab
    have hab : f a = f b := BitVec.eq_of_toNat_eq (by simpa using hab)
    by_contra hne
    rcases Nat.lt_or_gt_of_ne (fun h => hne (Fin.ext h)) with hlt | hlt
    · exact (hf a).1 ((walk_mono rfl (hf a).1 hlt).symm.trans (hab ▸ (hf b).2))
    · exact (hf b).1 ((walk_mono rfl (hf b).1 hlt).symm.trans (hab ▸ (hf a).2))
  simpa using Fintype.card_le_of_injective _ hinj

/-- The bound of ASSIGN's walk is enough: a walk that ends with some fuel ends with it. -/
theorem walkFuel_enough {N : Vector Node 255} {n i : NodeIdx} {fuel : Nat} {r : WalkEnd}
    (h : walk N n fuel i [] = r) (hr : r ≠ .endless) : walk N n walkFuel i [] = r := by
  rcases Nat.le_total fuel walkFuel with hf | hf
  · exact walk_mono h hr hf
  · by_cases he : walk N n walkFuel i [] = .endless
    · exfalso
      obtain ⟨d, rfl⟩ := Nat.exists_eq_add_of_le hf
      induction d with
      | zero => exact hr (h ▸ he)
      | succ d ih =>
        by_cases hd : walk N n (walkFuel + d) i [] = .endless
        · have := leastFuel_lt ⟨i, (h ▸ hr : walk N n (walkFuel + d + 1) i [] ≠ .endless), hd⟩
          simp [walkFuel] at this
          omega
        · exact ih (by rw [← h]; exact (walk_succ rfl hd).symm) (by omega)
    · exact h ▸ (walk_mono rfl he hf).symm

/-- A walk that returns does so with some fuel, and one that meets a missing child too. -/
theorem WalkReturns.exists_walk {N : Vector Node 255} {n i : NodeIdx} (h : WalkReturns N n i) :
    ∃ fuel, ∀ p, ∃ l, walk N n fuel i p = .leaves l := by
  induction h with
  | leaf i nd hn hl => exact ⟨1, fun p => ⟨[(nd.sym, p)], by simp [walk, hn, hl]⟩⟩
  | node i nd hn hl _ _ ihl ihr =>
    obtain ⟨a, ha⟩ := ihl
    obtain ⟨b, hb⟩ := ihr
    refine ⟨max a b + 1, fun p => ?_⟩
    obtain ⟨l, hl'⟩ := ha (p ++ [false])
    obtain ⟨r, hr'⟩ := hb (p ++ [true])
    exact ⟨l ++ r, by simp [walk, hn, hl, walk_mono hl' nofun (Nat.le_max_left a b),
      walk_mono hr' nofun (Nat.le_max_right a b)]⟩

theorem WalkMeetsMissing.exists_walk {N : Vector Node 255} {n i : NodeIdx} (h : WalkMeetsMissing N n i) :
    ∃ fuel, ∀ p, walk N n fuel i p = .missing := by
  induction h with
  | here i hn => exact ⟨0, fun p => by simp [walk, hn]⟩
  | left i nd hn hl _ ih =>
    obtain ⟨a, ha⟩ := ih
    exact ⟨a + 1, fun p => (walk_internal hn hl a p).1.mpr (.inl (ha _))⟩
  | right i nd hn hl hret _ ih =>
    obtain ⟨a, ha⟩ := hret.exists_walk
    obtain ⟨b, hb⟩ := ih
    refine ⟨max a b + 1, fun p =>
      (walk_internal hn hl _ p).1.mpr (.inr ⟨?_, walk_mono (hb _) nofun (Nat.le_max_right a b)⟩)⟩
    obtain ⟨l, hl'⟩ := ha (p ++ [false])
    exact ⟨l, walk_mono hl' nofun (Nat.le_max_left a b)⟩

/-- The bounded walk meets a missing child exactly when the walk of 41_assign.md rule R122, which has no bound, does. -/
theorem walk_missing_iff (N : Vector Node 255) (n i : NodeIdx) :
    walk N n walkFuel i [] = .missing ↔ WalkMeetsMissing N n i :=
  ⟨(walk_ends N n walkFuel i []).1, fun h => h.exists_walk.elim fun _ hf => walkFuel_enough (hf []) nofun⟩

/-- And it answers leaves exactly when that walk returns. -/
theorem walk_leaves_iff (N : Vector Node 255) (n i : NodeIdx) :
    (∃ l, walk N n walkFuel i [] = .leaves l) ↔ WalkReturns N n i :=
  ⟨fun ⟨l, h⟩ => (walk_ends N n walkFuel i []).2 l h, fun h => h.exists_walk.elim fun _ hf =>
    (hf []).elim fun l hl => ⟨l, walkFuel_enough hl nofun⟩⟩

/-- A walk that returns meets no missing child. -/
theorem WalkReturns.not_meetsMissing {N : Vector Node 255} {n i : NodeIdx} (h : WalkReturns N n i) :
    ¬WalkMeetsMissing N n i := by
  induction h with
  | leaf i nd hn hl =>
    intro hm
    cases hm with
    | here _ h0 => cases hn.symm.trans h0
    | left _ nd' h1 h2 => cases hn.symm.trans h1; simp [hl] at h2
    | right _ nd' h1 h2 => cases hn.symm.trans h1; simp [hl] at h2
  | node i nd hn hl _ _ ihl ihr =>
    intro hm
    cases hm with
    | here _ h0 => cases hn.symm.trans h0
    | left _ nd' h1 _ h2 => cases hn.symm.trans h1; exact ihl h2
    | right _ nd' h1 _ _ h2 => cases hn.symm.trans h1; exact ihr h2

/-- A walk that starts the same walk again before anything else goes round that cycle: it does not return. -/
theorem not_walkReturns_of_left_self {N : Vector Node 255} {n i : NodeIdx} {nd : Node} (hn : nodeAt N n i = some nd)
    (hl : nd.leaf = false) (hs : nd.left = i) : ¬WalkReturns N n i := by
  intro h
  generalize hj : i = j at h
  induction h with
  | leaf j nd' h1 h2 => subst hj; simp_all
  | node j nd' h1 _ _ _ ih _ => subst hj; cases hn.symm.trans h1; exact ih hs.symm

/-- Nor does it meet a missing child. -/
theorem not_walkMeetsMissing_of_left_self {N : Vector Node 255} {n i : NodeIdx} {nd : Node} (hn : nodeAt N n i = some nd)
    (hl : nd.leaf = false) (hs : nd.left = i) : ¬WalkMeetsMissing N n i := by
  intro h
  generalize hj : i = j at h
  induction h with
  | here j h0 => subst hj; simp_all
  | left j nd' h1 _ _ ih => subst hj; cases hn.symm.trans h1; exact ih hs.symm
  | right j nd' h1 _ h2 _ _ =>
    subst hj; cases hn.symm.trans h1; exact not_walkReturns_of_left_self hn hl hs (hs.symm ▸ h2)

end Sys2Proof.Machine
end

