-- ==== Sys2Proof/Laws/Codec.lean ====
section
/-! SUPPORT. The command word: every constructor's word decodes to it, and what decodes is a legal word. -/
namespace Sys2Proof

/-- BUILD with `MIN = 0` is the word 0000 0001 (30_encoding.md rule R84). -/
theorem decode_build_all : decode 0b00000001#8 = .ok (.build false) := rfl

/-- BUILD with `MIN = 1` is the word 0000 0101 (30_encoding.md rule R84). -/
theorem decode_build_min : decode 0b00000101#8 = .ok (.build true) := rfl

/-- ASSIGN is the word 0000 0010 (30_encoding.md rule R84). -/
theorem decode_assign : decode 0b00000010#8 = .ok .assign := rfl

/-- DECODE is the word 0000 0011 (30_encoding.md rule R84). -/
theorem decode_decode : decode 0b00000011#8 = .ok .decode := rfl

/-- A word is refused when a reserved bit is set, whatever its other bits (30_encoding.md rule R83). -/
theorem decode_reserved_bits {w : CmdWord} (h : reservedField w ≠ 0#5) : decode w = .error .reservedBits := by
  simp [decode, h]

/-- The length of the one format is 8 bits; no other length is a command (30_encoding.md rule R80). -/
theorem decodeTableWord_length {nbits : Nat} (h : nbits ≠ 8) (w : Nat) : decodeTableWord nbits w = none := by
  simp [decodeTableWord, h]

end Sys2Proof
end

