-- ==== Sys2Proof/Laws/Ops.lean ====
section
/-! SUPPORT. What each shared operation can do, said once: when it answers a next state, which one. Later proofs cite these
and do not unfold the operations. -/
namespace Sys2Proof.Machine

/-! ## The latch, 60_exceptions.md rule R177 -/

theorem unlessFaulted_clear {s : State} (h : s.status.fault = false) (k : Result) : unlessFaulted s k = k := by
  simp [unlessFaulted, h]

theorem unlessFaulted_latched {s : State} (h : s.status.fault = true) (k : Result) :
    unlessFaulted s k = .next (s.finish .faulted) := by
  simp [unlessFaulted, h]

theorem unlessFaulted_next {s t : State} {k : Result} :
    unlessFaulted s k = .next t ↔
      (s.status.fault = true ∧ t = s.finish .faulted) ∨ (s.status.fault = false ∧ k = .next t) := by
  cases h : s.status.fault
  · simp [unlessFaulted_clear h]
  · simp [unlessFaulted_latched h, eq_comm]

/-! ## The three commands -/

/-- BUILD always answers a next state (40_build.md rule R100). -/
theorem exec_build_clear {s : State} (h : s.status.fault = false) (min : Bool) :
    exec (.build min) s = .next (buildState min s) := unlessFaulted_clear h _

/-- DECODE always answers a next state (42_decode.md rule R140). -/
theorem exec_decode_clear {s : State} (h : s.status.fault = false) : exec .decode s = .next (decodeState s) :=
  unlessFaulted_clear h _

/-- What ASSIGN can do when the latch is clear (41_assign.md rules R120, R124, R126). -/
theorem exec_assign_clear {s : State} (h : s.status.fault = false) :
    exec .assign s = if s.status.treeValid then assignWalk s else .next (s.finish .noTree) := unlessFaulted_clear h _

/-- The next states of ASSIGN's walk. -/
theorem assignWalk_next {s t : State} (h : assignWalk s = .next t) :
    (walk s.node s.nodeCount walkFuel s.root [] = .missing ∧ t = assignFault s) ∨
      (∃ l, walk s.node s.nodeCount walkFuel s.root [] = .leaves l ∧
        wfArena s.node s.nodeCount s.root = true ∧ t = assignDone s l) := by
  unfold assignWalk at h
  split at h
  · exact .inl ⟨‹_›, by cases h; rfl⟩
  · cases h
  · next l hl =>
    split at h
    · exact .inr ⟨l, hl, ‹_›, by cases h; rfl⟩
    · cases h

/-- The next states of ASSIGN. -/
theorem exec_assign_next {s t : State} (h : exec .assign s = .next t) :
    (s.status.fault = true ∧ t = s.finish .faulted) ∨
      (s.status.fault = false ∧ s.status.treeValid = false ∧ t = s.finish .noTree) ∨
      (s.status.fault = false ∧ s.status.treeValid = true ∧ assignWalk s = .next t) := by
  rcases unlessFaulted_next.mp h with ⟨hf, rfl⟩ | ⟨hf, h⟩
  · exact .inl ⟨hf, rfl⟩
  · cases hv : s.status.treeValid
    · simp only [hv, Bool.false_eq_true, if_false, Host.Outcome.next.injEq] at h
      exact .inr (.inl ⟨hf, rfl, h.symm⟩)
    · simp only [hv, if_true] at h
      exact .inr (.inr ⟨hf, rfl, h⟩)

/-- A word is a command or leaves only the code of a refusal (30_encoding.md rule R85). -/
theorem execute_next {w : CmdWord} {s t : State} (h : execute w s = .next t) :
    (∃ i, decode w = .ok i ∧ exec i s = .next t) ∨
      ((∃ e, decode w = .error e) ∧ (t = s.finish .faulted ∨ t = s.finish .illegalCmd)) := by
  unfold execute at h
  split at h
  · exact .inl ⟨_, ‹_›, h⟩
  · next e he =>
    refine .inr ⟨⟨e, he⟩, ?_⟩
    rcases unlessFaulted_next.mp h with ⟨-, rfl⟩ | ⟨-, h⟩
    · exact .inl rfl
    · cases h; exact .inr rfl

/-! ## Host accesses -/

/-- A register's number names it (10_state.md rule R28). -/
theorem registerOf_registerNumber (r : RegName) : registerOf (registerNumber r) = some r := by cases r <;> rfl

/-- There is no register 8 or above (10_state.md rule R28). -/
theorem registerOf_isSome_iff (n : Nat) : (registerOf n).isSome = true ↔ n < 8 := by
  match n with
  | 0 | 1 | 2 | 3 | 4 | 5 | 6 | 7 => simp [registerOf]
  | n + 8 => simp [registerOf]

/-- What the model gives a step is what the well-formedness check allows, but for an ASSIGN on an ill-formed arena
(20_memory.md rule R63). -/
theorem perform_refused {a : HostAction} {s : State} {r : Refusal} (h : perform a s = .refused r) :
    a.wellFormed s.bits.length = false ∨ ∃ v, a = .wrr 0 v ∧ execute (commandWord v) s = .refused r := by
  cases a with
  | wrw i v => left; by_contra hw; simp_all [HostAction.wellFormed, perform, storeAt, spaceSize]
  | rdw i => left; by_contra hw; simp_all [HostAction.wellFormed, perform, answerRead]
  | wrn i v => left; by_contra hw; simp_all [HostAction.wellFormed, perform, storeAt, spaceSize]
  | rdn i => left; by_contra hw; simp_all [HostAction.wellFormed, perform, answerRead]
  | wrc i v => left; by_contra hw; simp_all [HostAction.wellFormed, perform, storeAt, spaceSize]
  | rdc i => left; by_contra hw; simp_all [HostAction.wellFormed, perform, answerRead]
  | wrb i b => left; by_contra hw; simp_all [HostAction.wellFormed, perform, storeAt, spaceSize]
  | rdb i => left; by_contra hw; simp_all [HostAction.wellFormed, perform, answerRead]
  | rdr i =>
    left
    by_contra hw
    have hi : i < 8 := by simpa [HostAction.wellFormed] using hw
    obtain ⟨x, hx⟩ := Option.isSome_iff_exists.mp ((registerOf_isSome_iff i).mpr hi)
    simp [perform, hx, answerRead] at h
  | wrr i v =>
    match i with
    | 0 => exact .inr ⟨v, rfl, h⟩
    | 1 | 2 | 3 | 4 | 5 | 6 | 7 => cases h
    | n + 8 => left; simp [HostAction.wellFormed]

theorem storeAt_next {s s' t : State} {sp : Space} {i : Nat} (h : storeAt s sp i s' = .next t) :
    i < spaceSize s sp ∧ t = s' := by
  unfold storeAt at h
  split at h
  · exact ⟨‹_›, by cases h; rfl⟩
  · cases h

theorem answerRead_next {s t : State} {sp : Space} {i : Nat} {v : Option HostValue}
    (h : answerRead s sp i v = .next t) : ∃ x, v = some x ∧ t = s.give x := by
  unfold answerRead at h
  split at h
  · exact ⟨_, rfl, by cases h; rfl⟩
  · cases h

theorem writeRegister_next {s t : State} {r : RegName} {v : BitVec 16} (h : writeRegister s r v = .next t) :
    (r = .cmd ∧ execute (commandWord v) s = .next t) ∨ (r = .bitpos ∧ t = s.setBitpos v) ∨
      (r = .bitlen ∧ t = s.setBitlen v) ∨ t = s := by
  cases r <;> simp_all [writeRegister, eq_comm]

/-- Everything a host access can do (43_host_access.md rules R150 to R157): store a weight, a bit or a position, return a
value, be ignored, or be a whole command. -/
theorem perform_next {a : HostAction} {s t : State} (h : perform a s = .next t) :
    (∃ i v, a = .wrw i v ∧ i < 128 ∧ t = s.setWeight i v) ∨ (∃ i b, a = .wrb i b ∧ i < s.bits.length ∧ t = s.setBit i b) ∨
      (∃ v, a = .wrr 6 v ∧ t = s.setBitpos v) ∨ (∃ v, a = .wrr 7 v ∧ t = s.setBitlen v) ∨ (∃ x, t = s.give x) ∨ t = s ∨
      (∃ v, a = .wrr 0 v ∧ execute (commandWord v) s = .next t) := by
  cases a with
  | wrw i v => exact .inl ⟨i, v, rfl, storeAt_next h⟩
  | rdw i => obtain ⟨x, -, rfl⟩ := answerRead_next h; simp
  | wrn i v => obtain ⟨-, rfl⟩ := storeAt_next h; simp
  | rdn i => obtain ⟨x, -, rfl⟩ := answerRead_next h; simp
  | wrc i v => obtain ⟨-, rfl⟩ := storeAt_next h; simp
  | rdc i => obtain ⟨x, -, rfl⟩ := answerRead_next h; simp
  | wrb i b => exact .inr (.inl ⟨i, b, rfl, storeAt_next h⟩)
  | rdb i => obtain ⟨x, -, rfl⟩ := answerRead_next h; simp
  | rdr i => obtain ⟨x, -, rfl⟩ := answerRead_next h; simp
  | wrr i v =>
    match i with
    | 0 => exact .inr (.inr (.inr (.inr (.inr (.inr ⟨v, rfl, h⟩)))))
    | 1 => cases h; simp
    | 2 => cases h; simp
    | 3 => cases h; simp
    | 4 => cases h; simp
    | 5 => cases h; simp
    | 6 => cases h; exact .inr (.inr (.inl ⟨v, rfl, rfl⟩))
    | 7 => cases h; exact .inr (.inr (.inr (.inl ⟨v, rfl, rfl⟩)))
    | n + 8 => cases h

/-- Everything a step can do (20_memory.md rule R67; 70_reset_and_hazards.md rules R195, R210). -/
theorem step_next {s t : State} (h : step s = .next t) :
    (s.inbox = [] ∧ t = s) ∨ (∃ rest, s.inbox = .reset :: rest ∧ t = (s.withInbox rest).platformReset) ∨
      (∃ a rest, s.inbox = .host a :: rest ∧ perform a (s.withInbox rest) = .next t) := by
  unfold step takeInput at h
  split at h
  · cases h; exact .inl ⟨‹_›, rfl⟩
  · next e rest he =>
    cases e with
    | host a => exact .inr (.inr ⟨a, rest, he, h⟩)
    | reset => cases h; exact .inr (.inl ⟨rest, he, rfl⟩)

/-- A host write to `CMD` is executed (30_encoding.md rule R85). -/
theorem step_command {s : State} {v : BitVec 16} {rest : List Input} (h : s.inbox = .host (.wrr 0 v) :: rest) :
    step s = execute (commandWord v) (s.withInbox rest) := by
  simp [step, takeInput, h, performInput, perform, registerOf, writeRegister]

end Sys2Proof.Machine
end

