-- ==== Sys2Proof/Laws/Invariant.lean ====
section
/-! SUPPORT. The invariant: what it depends on, so that a step that writes none of that keeps it. -/
namespace Sys2Proof.Machine

/-- `Inv` is a property of the tree, the codes, `STATUS`, the two result registers and the length of `BITS` alone. -/
theorem Inv.of_eq {s t : State} (h : Inv s) (h1 : t.node = s.node) (h2 : t.nodeCount = s.nodeCount) (h3 : t.root = s.root)
    (h4 : t.code = s.code) (h5 : t.status = s.status) (h6 : t.decSymbol = s.decSymbol)
    (h7 : t.decConsumed = s.decConsumed) (h8 : t.bits.length = s.bits.length) : Inv t where
  capacity := by rw [h8]; exact h.capacity
  noFault := h5 ▸ h.noFault
  canonical := (memory_wf_of_code h4).trans h.canonical
  tree := by rw [h1, h2, h3, h5]; exact h.tree
  noTree := by rw [h2, h3, h5]; exact h.noTree
  codes := by have := h.codes; simp only [codesAgree, leafAtPath] at this ⊢; rwa [h1, h2, h3, h4]
  complete := by have := h.complete; simp only [codesComplete] at this ⊢; rwa [h1, h2, h4, h5]
  decoded := h6 ▸ h.decoded
  consumed := h7 ▸ h.consumed

theorem Inv.setWeight {s : State} (h : Inv s) (i : Nat) (v : Weight) : Inv (s.setWeight i v) :=
  h.of_eq rfl rfl rfl rfl rfl rfl rfl rfl

theorem Inv.setBit {s : State} (h : Inv s) (i : Nat) (b : Bool) : Inv (s.setBit i b) :=
  h.of_eq rfl rfl rfl rfl rfl rfl rfl (by simp)

theorem Inv.setBitpos {s : State} (h : Inv s) (v : BitVec 16) : Inv (s.setBitpos v) :=
  h.of_eq rfl rfl rfl rfl rfl rfl rfl rfl

theorem Inv.setBitlen {s : State} (h : Inv s) (v : BitVec 16) : Inv (s.setBitlen v) :=
  h.of_eq rfl rfl rfl rfl rfl rfl rfl rfl

theorem Inv.give {s : State} (h : Inv s) (v : HostValue) : Inv (s.give v) := h.of_eq rfl rfl rfl rfl rfl rfl rfl rfl

theorem Inv.withInbox {s : State} (h : Inv s) (l : List Input) : Inv (s.withInbox l) :=
  h.of_eq rfl rfl rfl rfl rfl rfl rfl rfl

/-- The code of a result is no part of the invariant. -/
theorem Inv.finish {s : State} (h : Inv s) (c : ResultCode) : Inv (s.finish c) where
  capacity := h.capacity
  noFault := h.noFault
  canonical := h.canonical
  tree := h.tree
  noTree := h.noTree
  codes := h.codes
  complete := h.complete
  decoded := h.decoded
  consumed := h.consumed

end Sys2Proof.Machine
end

