-- ==== Sys2Proof/Laws/PerInstr.lean ====
section
/-! SUPPORT. The family of statements made one per instruction. -/
namespace Sys2Proof.Laws

/-- The word of an instruction is the instruction's: it is legal, and the host's table reading gives the instruction back
(30_encoding.md rule R84). -/
def WordReadsBack.Statement (i : Instr) : Prop :=
  legalWord (encode i) = true ∧ i.wellFormed = true ∧ decodeTableWord 8 (encode i).toNat = some i

theorem WordReadsBack.build (min : Bool) : WordReadsBack.Statement (.build min) := by
  cases min <;> exact ⟨rfl, rfl, rfl⟩

theorem WordReadsBack.assign : WordReadsBack.Statement .assign := ⟨rfl, rfl, rfl⟩

theorem WordReadsBack.decode : WordReadsBack.Statement .decode := ⟨rfl, rfl, rfl⟩

end Sys2Proof.Laws
end

