-- ==== Sys2Proof/Laws/Queue.lean ====
section
/-! SUPPORT. The queue of the Tree Builder: `extractMin` takes one node out and leaves the others (40_build.md rule R103),
and takes the lowest when the order is total on the queue. -/
namespace Sys2Proof.Machine

theorem extractMin_eq_none {q : List Queued} : extractMin q = none ↔ q = [] := by
  cases q with
  | nil => simp [extractMin]
  | cons x q => simp only [extractMin]; split <;> [skip; split] <;> simp

/-- What is removed and what is left are together the queue. -/
theorem extractMin_perm {q rest : List Queued} {m : Queued} (h : extractMin q = some (m, rest)) :
    (m :: rest).Perm q := by
  induction q generalizing m rest with
  | nil => simp [extractMin] at h
  | cons x q ih =>
    simp only [extractMin] at h
    split at h
    · next hn =>
      obtain rfl := extractMin_eq_none.mp hn
      cases h; exact .refl _
    · next m' rest' hs =>
      split at h
      · cases h; exact (ih hs).cons x
      · cases h; exact (List.Perm.swap x m rest').trans ((ih hs).cons x)

theorem extractMin_length {q rest : List Queued} {m : Queued} (h : extractMin q = some (m, rest)) :
    rest.length + 1 = q.length := by
  simpa using (extractMin_perm h).length_eq

/-- The removed node is the lowest, when `nodeLess` is transitive and total between different nodes of the queue. -/
theorem extractMin_least {q rest : List Queued} {m : Queued}
    (trans : ∀ a ∈ q, ∀ b ∈ q, ∀ c ∈ q, nodeLess a b = true → nodeLess b c = true → nodeLess a c = true)
    (total : q.Pairwise fun a b => nodeLess a b = true ∨ nodeLess b a = true)
    (h : extractMin q = some (m, rest)) : ∀ x ∈ rest, nodeLess m x = true := by
  induction q generalizing m rest with
  | nil => simp [extractMin] at h
  | cons x q ih =>
    have htail : ∀ a ∈ q, ∀ b ∈ q, ∀ c ∈ q, nodeLess a b = true → nodeLess b c = true → nodeLess a c = true :=
      fun a ha b hb c hc => trans a (.tail _ ha) b (.tail _ hb) c (.tail _ hc)
    rw [List.pairwise_cons] at total
    simp only [extractMin] at h
    split at h
    · cases h; simp
    · next m' rest' hs =>
      have hmem : ∀ y ∈ m' :: rest', y ∈ q := fun y hy => (extractMin_perm hs).mem_iff.mp hy
      have hleast := ih htail total.2 hs
      split at h
      · next hlt =>
        cases h
        intro y hy
        rcases List.mem_cons.mp hy with rfl | hy
        · exact hlt
        · exact trans _ (.head _) m' (.tail _ (hmem m' (.head _))) y (.tail _ (hmem y (.tail _ hy))) hlt (hleast y hy)
      · next hlt =>
        cases h
        intro y hy
        rcases List.mem_cons.mp hy with rfl | hy
        · exact (total.1 m (hmem m (.head _))).resolve_left hlt
        · exact hleast y hy

end Sys2Proof.Machine
end

