-- ==== Sys2Proof/Tests/Slice0.lean ====
section
/-! SUPPORT. The model's own tests: the well-formedness smoke test, the decode tests, one or two steps per command and kind
of access with results taken from 95_test_vectors.md, and for every statement with hypotheses a concrete state and operands
that meet them. -/
namespace Sys2Proof.Tests
open Sys2Proof Sys2Proof.Machine

/-! ## Helpers -/

/-- The tree of 95_test_vectors.md V-S1, written out from its table. -/
def sampleNodes : List Node :=
  [{ weight := 1, sym := 0, leaf := true, left := 255, right := 255 },
   { weight := 5, sym := 65, leaf := true, left := 255, right := 255 },
   { weight := 2, sym := 66, leaf := true, left := 255, right := 255 },
   { weight := 1, sym := 67, leaf := true, left := 255, right := 255 },
   { weight := 2, sym := 0, leaf := false, left := 0, right := 3 },
   { weight := 4, sym := 0, leaf := false, left := 2, right := 4 },
   { weight := 9, sym := 0, leaf := false, left := 5, right := 1 }]

/-- V-A5: the same arena with `NODE[4].right` altered. -/
def brokenNodes (right : NodeIdx) : List Node :=
  sampleNodes.take 4 ++ [{ weight := 2, sym := 0, leaf := false, left := 0, right := right }] ++ sampleNodes.drop 5

/-- Two leaves of one symbol under a root: not well formed, and no child is missing. -/
def twinNodes : List Node :=
  [{ weight := 1, sym := 0, leaf := true, left := 255, right := 255 },
   { weight := 1, sym := 0, leaf := true, left := 255, right := 255 },
   { weight := 2, sym := 0, leaf := false, left := 0, right := 1 }]

/-- A root with the given children. -/
def loopRoot (left right : NodeIdx) : Node := { weight := 2, sym := 0, leaf := false, left := left, right := right }

/-- Two leaves and that root, node 2. -/
def loopNodes (left right : NodeIdx) : List Node := twinNodes.take 2 ++ [loopRoot left right]

/-- The single-leaf tree of V-B2. -/
def loneNodes : List Node := [{ weight := 0, sym := 0, leaf := true, left := 255, right := 255 }]

/-- Reset with a weight table loaded. -/
def weighted (t : List (Nat × Weight)) : State := { State.reset with weight := tabulate 128 (listedWeight t) }

/-- The table of V-S1. -/
def sampleWeights : List (Nat × Weight) := [(0, 1#32), (65, 5#32), (66, 2#32), (67, 1#32)]

/-- A state with a built tree, and bits to decode from index 0. -/
def onTree (l : List Node) (bits : List Bool) : State :=
  { State.reset with
    node := tabulate 255 fun i => l[i]?.getD default
    nodeCount := BitVec.ofNat 8 l.length
    root := BitVec.ofNat 8 (l.length - 1)
    status := { code := .ok, treeValid := true, codesValid := false, fault := false }
    bits := elements Config.bitcap fun i => bits[i]?.getD false
    bitlen := BitVec.ofNat 16 bits.length }

/-- Reset with the table of V-S1 loaded and its tree built. -/
def built : State := (((weighted sampleWeights).setTree sampleNodes 6).setCodes emptyCodes).markBuilt.finish .ok

/-- The code elements V-S1 lists after ASSIGN. -/
def sampleCode : Nat → Code
  | 0 => { valid := true, len := 3, bits := 0x2 }
  | 65 => { valid := true, len := 1, bits := 0x1 }
  | 66 => { valid := true, len := 2, bits := 0x0 }
  | 67 => { valid := true, len := 3, bits := 0x6 }
  | _ => Code.absent

/-- The tree of V-S1 with its codes assigned, and bits to decode. -/
def coded (bits : List Bool) : State :=
  { onTree sampleNodes bits with
    code := tabulate 128 sampleCode
    status := { code := .ok, treeValid := true, codesValid := true, fault := false } }

/-- V-S6: the stream of the symbols 65, 66, 67 and the terminator. -/
def stream : List Bool := [true, false, false, false, true, true, false, true, false]

/-- A state with the latch set: STATUS 0x72 (V-E4). -/
def latched : State :=
  { onTree sampleNodes [] with status := { code := .invariant, treeValid := true, codesValid := true, fault := true } }

/-- The same state with one event issued. -/
def issued (s : State) (a : HostAction) : State := s.withInbox [.host a]

/-- A result is a next state with a property. -/
def nextWith (r : Result) (p : State → Bool) : Bool :=
  match r with
  | .next t => p t
  | .fault _ => false
  | .refused _ => false

/-- A result is a refusal, and which. -/
def refusedWith (r : Result) (x : Refusal) : Bool :=
  match r with
  | .next _ => false
  | .fault _ => false
  | .refused y => decide (y = x)

/-! ## Well-formedness: an ill-formed term for each check -/

theorem test_word_with_reserved_bit : legalWord 0b00001001#8 = false := by decide
theorem test_word_with_op_zero : legalWord 0b00000000#8 = false := by decide
theorem test_word_with_min_on_assign : legalWord 0b00000110#8 = false := by decide
theorem test_word_legal : legalWord 0b00000101#8 = true := by decide
theorem test_wrw_out_of_range : (HostAction.wrw 128 0).wellFormed 1024 = false := by decide
theorem test_rdw_out_of_range : (HostAction.rdw 128).wellFormed 1024 = false := by decide
theorem test_wrn_out_of_range : (HostAction.wrn 255 0).wellFormed 1024 = false := by decide
theorem test_rdn_out_of_range : (HostAction.rdn 255).wellFormed 1024 = false := by decide
theorem test_wrc_out_of_range : (HostAction.wrc 128 0).wellFormed 1024 = false := by decide
theorem test_rdc_out_of_range : (HostAction.rdc 128).wellFormed 1024 = false := by decide
theorem test_wrb_out_of_range : (HostAction.wrb 1024 true).wellFormed 1024 = false := by decide
theorem test_rdb_out_of_range : (HostAction.rdb 1024).wellFormed 1024 = false := by decide
theorem test_wrr_out_of_range : (HostAction.wrr 8 0).wellFormed 1024 = false := by decide
theorem test_rdr_out_of_range : (HostAction.rdr 8).wellFormed 1024 = false := by decide

/-- The capacity is the instance's: the same access is legal one element up. -/
theorem test_wrb_range_follows_capacity : (HostAction.wrb 1024 true).wellFormed 1025 = true := by decide

/-! ## Decoding, from the words of 30_encoding.md rule R84 and V-E1 -/

theorem test_decode_build : decode 0b00000101#8 = .ok (.build true) := by decide
theorem test_decode_build_all : decode 0b00000001#8 = .ok (.build false) := by decide
theorem test_decode_assign : decode 0b00000010#8 = .ok .assign := by decide
theorem test_decode_decode : decode 0b00000011#8 = .ok .decode := by decide
theorem test_decode_min_on_decode : decode 0b00000111#8 = .error .minWithoutBuild := by decide
theorem test_decode_high_bit : decode 0b10000001#8 = .error .reservedBits := by decide
theorem test_table_word : decodeTableWord 8 0x05 = some (.build true) := by decide
theorem test_fetch_runs_build : step (State.reset.withFetchWord 8 0x05) = exec (.build true) State.reset := rfl

/-! ## BUILD -/

/-- V-S1. -/
theorem test_build_example : exec (.build true) (weighted sampleWeights) = .next built := by
  rw [exec_build_clear (s := weighted sampleWeights) rfl, buildState,
    show buildTree (weighted sampleWeights).weight true = (sampleNodes, 6) by decide +kernel]
  rfl

/-- What V-S1 lists after BUILD. -/
theorem built_example : treeNodes built.node built.nodeCount = sampleNodes ∧ built.root = 6#8 ∧
    statusBits built.status = 0x10#8 := by decide +kernel

/-- V-B8: a sum that does not fit in 32 bits. -/
theorem test_build_sum_is_exact : nextWith
    (exec (.build true) (weighted [(0, 0xFFFFFFFF#32), (1, 0xFFFFFFFF#32), (2, 0xFFFFFFFF#32)])) (fun t =>
    decide (t.node[3]?.map nodeBits = some 0x00800001FFFFFFFE#63 ∧
      t.node[4]?.map nodeBits = some 0x01810002FFFFFFFD#63)) = true := by
  decide +kernel

/-- V-B12: a leaf of a high symbol before an internal node of equal weight. -/
theorem test_node_less_leaf_before_internal :
    nodeLess ({ weight := 2, sym := 100, leaf := true, left := 255, right := 255 }, 2)
      ({ weight := 2, sym := 0, leaf := false, left := 0, right := 1 }, 3) = true := by decide

/-! ## ASSIGN -/

/-- V-S1: the codes, as 135-bit values and as sequences. -/
theorem test_assign_example : nextWith (exec .assign (onTree sampleNodes [])) (fun t =>
    decide (statusBits t.status = 0x30#8 ∧ t.code[67]?.map codeBits = some 0x4180000000000000000000000000000006#135 ∧
      t.code[0]?.map codeSequence = some [false, true, false] ∧ t.code[1]? = some Code.absent)) = true := by
  decide +kernel

/-- V-A5: a missing child clears the table and latches the fault. -/
theorem test_assign_missing_child : nextWith (exec .assign (onTree (brokenNodes 255) [])) (fun t =>
    decide (statusBits t.status = 0x52#8 ∧ t.code[66]? = some Code.absent)) = true := by
  decide +kernel

/-! ## DECODE -/

/-- V-D3, and V-D2's bits beyond the code. -/
theorem test_decode_example : nextWith (exec .decode (onTree sampleNodes [false, true, true, false])) (fun t =>
    decide (statusBits t.status = 0x10#8 ∧ t.decSymbol = 0x43#8 ∧ t.decConsumed = 3#8 ∧ t.bitpos = 0#16)) = true := by
  decide +kernel

/-- V-D4. -/
theorem test_decode_incomplete : nextWith (exec .decode (onTree sampleNodes [false, true])) (fun t =>
    decide (statusBits t.status = 0x11#8 ∧ t.decSymbol = 0xFF#8 ∧ t.decConsumed = 2#8)) = true := by
  decide +kernel

/-! ## Host accesses -/

/-- V-S1's element value of `NODE[6]`. -/
theorem test_read_node : nextWith (step (issued (onTree sampleNodes []) (.rdn 6))) (fun t =>
    decide (t.returned = [.node 0x0082800000000009#63])) = true := by
  decide +kernel

/-- V-H5, the top of `BITS`. -/
theorem test_write_top_bit : nextWith (step (issued (onTree sampleNodes []) (.wrb 1023 true))) (fun t =>
    decide (t.bits.drop 1022 = [false, true])) = true := by
  decide +kernel

/-- V-H3. -/
theorem test_status_ignores_write : step (issued (coded []) (.wrr 1 0xFF)) = .next (coded []) := rfl

/-- V-E4: 0x72 becomes 0x76. -/
theorem test_latched_word : nextWith (step (issued latched (.wrr 0 0x01))) (fun t =>
    decide (statusBits t.status = 0x76#8)) = true := by decide

/-- V-H6. -/
theorem test_no_register_eight : refusedWith (step (issued State.reset (.rdr 8))) (.badIndex .reg 8) = true := by decide

/-! ## Facts the witnesses share -/

/-- The bits begin with a sequence when every one of its bits is there. -/
theorem begin_of_all (s : State) (p : List Bool)
    (h : (p.zipIdx.all fun e => s.bits[s.bitpos.toNat + e.2]? == some e.1) = true) : bitsBegin s p := by
  intro k b hk
  have := List.all_eq_true.mp h (b, k) (by simp [List.mem_zipIdx_iff_getElem?, hk])
  simpa using this

/-- A helper's state keeps the capacity of reset. -/
@[simp] theorem onTree_capacity (l : List Node) (b : List Bool) : (onTree l b).bits.length = 1024 := by simp [onTree]

theorem coded_canonical : Memory.wf (coded stream) = true := by decide +kernel

theorem coded_tree : wfArena (coded stream).node (coded stream).nodeCount (coded stream).root = true ∧
    treeShape (coded stream).node (coded stream).nodeCount (coded stream).root = true := by decide +kernel

theorem coded_codes : codesAgree (coded stream) = true := by decide +kernel

theorem coded_complete : codesComplete (coded stream) = true := by decide +kernel

/-! ## Witnesses: the hypotheses of each statement, met together -/

theorem witness_LegalWordsAreExactlyFour : (∀ i, decode 0x00#8 ≠ .ok i) ∧ State.reset.status.fault = false :=
  ⟨nofun, rfl⟩

theorem witness_DecodeEncodeRoundTrip : decode 0x05#8 = .ok (.build true) := rfl

theorem witness_StepRunsDecodedCommand :
    (issued State.reset (.wrr 0 0x0005#16)).inbox = .host (.wrr 0 0x0005#16) :: [] ∧
      decode ((0x0005#16).extractLsb 7 0) = .ok (.build true) ∧ (Instr.build true).wellFormed = true := ⟨rfl, rfl, rfl⟩

theorem witness_FaultLatchRefusesEveryWord : latched.status.fault = true := rfl

theorem witness_IllegalWordWritesOnlyTheCode :
    State.reset.status.fault = false ∧ (0x04#16).extractLsb 7 0 ∉ [0x01#8, 0x05#8, 0x02#8, 0x03#8] := ⟨rfl, by decide⟩

theorem witness_StepPerformsTheNextEvent_host :
    (issued State.reset (.wrr 6 7#16)).inbox = .host (.wrr 6 7#16) :: [] := rfl

theorem witness_StepPerformsTheNextEvent_idle : State.reset.inbox = [] := rfl

theorem witness_LaterIssuesDoNotInterfere :
    (issued State.reset (.wrr 6 7#16)).inbox ≠ [] ∧ ∃ t, step (issued State.reset (.wrr 6 7#16)) = .next t :=
  ⟨nofun, _, rfl⟩

/-- The ends of the ranges of `WEIGHT`, `NODE`, `CODE`, `BITS` and `REG`, for HostWritesWeight, HostReadsWeight,
HostReadsNode, HostReadsCode, HostWritesBit, HostReadsBit, HostReadsRegister and ReadOnlyTargetsIgnoreWrites. -/
theorem witness_HostAccesses_ranges :
    0 < 128 ∧ 127 < 128 ∧ 0 < 255 ∧ 254 < 255 ∧ 0 < State.reset.bits.length ∧ 1023 < State.reset.bits.length ∧
      0 < 8 ∧ 7 < 8 := by simp [State.reset]

/-- The read-only registers, first and last, for HostWritesRegister and ReadOnlyTargetsIgnoreWrites. -/
theorem witness_HostAccesses_read_only : (1 ≤ 1 ∧ 1 ≤ 5) ∧ (1 ≤ 5 ∧ 5 ≤ 5) := by decide

/-- The first index out of each range, for OutOfRangeAccessHasNoStep. -/
theorem witness_OutOfRangeAccessHasNoStep :
    128 ≤ 128 ∧ 255 ≤ 255 ∧ State.reset.bits.length ≤ 1024 ∧ 8 ≤ 8 := by simp [State.reset]

theorem witness_ReadsHaveNoSideEffect :
    (HostAction.rdr 7).wellFormed State.reset.bits.length = true ∧ (∃ i, HostAction.rdr 7 = .rdr i) ∧
      (HostAction.rdn 254).wellFormed State.reset.bits.length = true ∧
      ∃ i, HostAction.rdn 254 = .rdn i := ⟨rfl, ⟨7, rfl⟩, rfl, 254, rfl⟩

theorem witness_CommandsNeverWriteHostState : ∃ t, exec .decode State.reset = .next t := ⟨_, rfl⟩

theorem witness_BuildCompletes : State.reset.status.fault = false := rfl

/-- The hypotheses of BuildLeavesAreIncludedSymbols, BuildCounts, BuildMergesTheTwoLowest, BuildTreeIsWellFormed,
BuildWeightsAreExactSums and NodeOrderIsWeightThenIndex. -/
theorem witness_Build :
    (weighted sampleWeights).status.fault = false ∧ ∃ t, exec (.build true) (weighted sampleWeights) = .next t :=
  ⟨rfl, _, rfl⟩

/-- The included symbols of V-S1. -/
theorem sample_included : includedSymbols (weighted sampleWeights).weight true = [0, 65, 66, 67] := by
  have h : includedSymbols (weighted sampleWeights).weight true =
      (List.range 128).filter fun k => decide (k = 0) || decide (listedWeight sampleWeights k ≠ 0#32) :=
    List.filter_congr fun k hk => by
      have hw : (weighted sampleWeights).weight[k]? = some (listedWeight sampleWeights k) :=
        (tabulate_getElem? 128 _ k).trans (if_pos (List.mem_range.mp hk))
      simp only [hw, ne_eq, Option.some.injEq, Bool.not_true, Bool.or_false]
  rw [h]; decide +kernel

/-- The first symbol of the leaves of V-S1, and its last. -/
theorem witness_BuildLeavesAreIncludedSymbols_leaves :
    (includedSymbols (weighted sampleWeights).weight true)[0]? = some 0 ∧
      (includedSymbols (weighted sampleWeights).weight true)[3]? = some 67 ∧
      (weighted sampleWeights).weight[67]? = some 1#32 := by
  rw [sample_included]; exact ⟨rfl, rfl, by decide +kernel⟩

/-- An internal node of V-S1's tree, above the leaves. -/
theorem witness_BuildLeavesAreIncludedSymbols_internal :
    exec (.build true) (weighted sampleWeights) = .next built ∧
      (includedSymbols (weighted sampleWeights).weight true).length ≤ 4 ∧
      ∃ nd, (treeNodes built.node built.nodeCount)[4]? = some nd :=
  ⟨test_build_example, by rw [sample_included]; decide, by rw [built_example.1]; exact ⟨_, rfl⟩⟩

/-- An internal node of V-S1's tree, for the statement about the merges. -/
theorem witness_BuildMergesTheTwoLowest : exec (.build true) (weighted sampleWeights) = .next built ∧
    ∃ nd, (treeNodes built.node built.nodeCount)[6]? = some nd ∧ nd.leaf = false :=
  ⟨test_build_example, by rw [built_example.1]; exact ⟨_, rfl, rfl⟩⟩

theorem witness_BuildIsDeterministic :
    (weighted sampleWeights).status.fault = false ∧ ((weighted sampleWeights).setBitpos 7#16).status.fault = false ∧
      (weighted sampleWeights).weight = ((weighted sampleWeights).setBitpos 7#16).weight ∧
      (∃ t, exec (.build true) (weighted sampleWeights) = .next t) ∧
      ∃ t, exec (.build true) ((weighted sampleWeights).setBitpos 7#16) = .next t :=
  ⟨rfl, rfl, rfl, ⟨_, rfl⟩, _, rfl⟩

/-- Two different nodes of V-S1's tree, a leaf and an internal node. -/
theorem witness_NodeOrderIsWeightThenIndex : exec (.build true) (weighted sampleWeights) = .next built ∧
    (∃ x, (treeNodes built.node built.nodeCount)[2]? = some x) ∧
    (∃ y, (treeNodes built.node built.nodeCount)[4]? = some y) ∧ 2 ≠ 4 :=
  ⟨test_build_example, by rw [built_example.1]; exact ⟨⟨_, rfl⟩, ⟨_, rfl⟩, by decide⟩⟩

/-- The hypotheses of AssignCompletes, AssignedCodesArePrefixFree, AssignIsDeterministic and
DecodeIsBoundedOnWellFormedTree. -/
theorem witness_AssignCompletes :
    (onTree sampleNodes []).status.fault = false ∧ (onTree sampleNodes []).status.treeValid = true ∧
      wfArena (onTree sampleNodes []).node (onTree sampleNodes []).nodeCount (onTree sampleNodes []).root = true := by
  decide +kernel

/-- A leaf of that tree, and a symbol with none. -/
theorem witness_AssignCompletes_leaf :
    (nodeAt (onTree sampleNodes []).node (onTree sampleNodes []).nodeCount 3#8).map Node.leaf = some true ∧
      (sampleNodes.all fun nd => !nd.leaf || decide (nd.sym.toNat ≠ 127)) = true := by
  decide +kernel

theorem witness_AssignFrame : ∃ t, exec .assign State.reset = .next t := ⟨_, rfl⟩

theorem witness_AssignFrame_latched : latched.status.fault = true ∧ ∃ t, exec .assign latched = .next t := ⟨rfl, _, rfl⟩

/-- V-A5's arena: the walk returns from node 2 and from node 0, and then meets the missing right child of node 4. -/
theorem witness_AssignFaultsOnMissingChild :
    (onTree (brokenNodes 255) []).status.fault = false ∧ (onTree (brokenNodes 255) []).status.treeValid = true ∧
      WalkMeetsMissing (onTree (brokenNodes 255) []).node (onTree (brokenNodes 255) []).nodeCount
        (onTree (brokenNodes 255) []).root :=
  ⟨rfl, rfl, (walk_ends _ _ walkFuel _ []).1 (by decide +kernel)⟩

/-- An arena with a cycle that the walk does not reach: the left child is missing, the right one is the node itself. -/
theorem witness_AssignFaultsOnMissingChild_before_cycle :
    (onTree (loopNodes 255 2) []).status.fault = false ∧ (onTree (loopNodes 255 2) []).status.treeValid = true ∧
      WalkMeetsMissing (onTree (loopNodes 255 2) []).node (onTree (loopNodes 255 2) []).nodeCount
        (onTree (loopNodes 255 2) []).root :=
  ⟨rfl, rfl, .left _ (loopRoot 255 2) (by decide +kernel) rfl (.here _ (by decide +kernel))⟩

/-- Two leaves of one symbol: the walk returns. -/
theorem witness_AssignStopsOnIllFormedArena :
    (onTree twinNodes []).status.fault = false ∧ (onTree twinNodes []).status.treeValid = true ∧
      ¬WalkMeetsMissing (onTree twinNodes []).node (onTree twinNodes []).nodeCount (onTree twinNodes []).root ∧
      wfArena (onTree twinNodes []).node (onTree twinNodes []).nodeCount (onTree twinNodes []).root = false :=
  ⟨rfl, rfl, ((walk_ends _ _ walkFuel _ []).2 [(0#7, [false]), (0#7, [true])] (by decide +kernel)).not_meetsMissing,
    by decide +kernel⟩

/-- A cycle, with a missing child that the walk does not reach: the left child is the node itself, the right one missing. -/
theorem witness_AssignStopsOnIllFormedArena_cycle :
    (onTree (loopNodes 2 255) []).status.fault = false ∧ (onTree (loopNodes 2 255) []).status.treeValid = true ∧
      ¬WalkMeetsMissing (onTree (loopNodes 2 255) []).node (onTree (loopNodes 2 255) []).nodeCount
        (onTree (loopNodes 2 255) []).root ∧
      wfArena (onTree (loopNodes 2 255) []).node (onTree (loopNodes 2 255) []).nodeCount
        (onTree (loopNodes 2 255) []).root = false :=
  ⟨rfl, rfl, not_walkMeetsMissing_of_left_self (nd := loopRoot 2 255) (by decide +kernel) rfl rfl, by decide +kernel⟩

theorem witness_AssignStopsOnNoWellFormedTree :
    refusedWith (exec .assign (onTree twinNodes [])) .assignIllFormed = true := by decide +kernel

theorem witness_AssignSingleLeafGivesEmptyCode :
    (onTree loneNodes []).status.fault = false ∧ (onTree loneNodes []).status.treeValid = true ∧
      wfArena (onTree loneNodes []).node (onTree loneNodes []).nodeCount (onTree loneNodes []).root = true ∧
      nodeAt (onTree loneNodes []).node (onTree loneNodes []).nodeCount (onTree loneNodes []).root =
        some { weight := 0, sym := 0, leaf := true, left := 255, right := 255 } := by
  decide +kernel

/-- Two valid codes of different symbols after ASSIGN on V-S1's tree. -/
theorem witness_AssignedCodesArePrefixFree : nextWith (exec .assign (onTree sampleNodes [])) (fun t =>
    (t.code[0]?.map Code.valid == some true) && (t.code[67]?.map Code.valid == some true)) = true := by
  decide +kernel

theorem witness_AssignIsDeterministic : ∃ s2 : State, s2 ≠ onTree sampleNodes [] ∧ s2.status.fault = false ∧
    s2.status.treeValid = true ∧ (onTree sampleNodes []).nodeCount = s2.nodeCount ∧ (onTree sampleNodes []).root = s2.root ∧
    treeNodes (onTree sampleNodes []).node (onTree sampleNodes []).nodeCount = treeNodes s2.node s2.nodeCount ∧
    nextWith (exec .assign (onTree sampleNodes [])) (fun _ => true) = true :=
  ⟨(onTree sampleNodes []).setBitpos 7#16, fun h => absurd (congrArg State.bitpos h) (by decide), rfl, rfl, rfl, rfl, rfl,
    by decide +kernel⟩

theorem witness_NoTreeIsRefused : State.reset.status.fault = false ∧ State.reset.status.treeValid = false := ⟨rfl, rfl⟩

theorem witness_DecodeCompletes :
    let s := onTree sampleNodes [false, true, true]
    s.status.fault = false ∧ s.status.treeValid = true ∧ s.bitpos.toNat < s.bitlen.toNat ∧
      s.bitlen.toNat ≤ s.bits.length ∧ s.bitpos.toNat + [false, true, true].length ≤ s.bitlen.toNat ∧
      bitsBegin s [false, true, true] ∧ follow s.node s.nodeCount s.root [false, true, true] = some 3#8 ∧
      nodeAt s.node s.nodeCount 3#8 = some { weight := 1, sym := 67, leaf := true, left := 255, right := 255 } :=
  ⟨rfl, rfl, by decide +kernel, by decide +kernel, by decide +kernel, begin_of_all _ _ (by decide +kernel),
    by decide +kernel, by decide +kernel⟩

theorem witness_DecodeOfEmptyInputIsIncomplete :
    let s := (onTree sampleNodes []).setBitpos 1024#16 |>.setBitlen 1024#16
    s.status.fault = false ∧ s.status.treeValid = true ∧ s.bitpos = s.bitlen ∧ s.bitlen.toNat ≤ s.bits.length :=
  ⟨rfl, rfl, rfl, by decide +kernel⟩

theorem witness_DecodeOutOfBitsIsIncomplete :
    let s := onTree sampleNodes [false, true]
    s.status.fault = false ∧ s.status.treeValid = true ∧ s.bitlen.toNat ≤ s.bits.length ∧
      s.bitpos.toNat + [false, true].length = s.bitlen.toNat ∧ bitsBegin s [false, true] ∧
      follow s.node s.nodeCount s.root [false, true] = some 4#8 ∧
      nodeAt s.node s.nodeCount 4#8 = some { weight := 2, sym := 0, leaf := false, left := 0, right := 3 } :=
  ⟨rfl, rfl, by decide +kernel, rfl, begin_of_all _ _ (by decide +kernel), by decide +kernel, by decide +kernel⟩

/-- Clause 1: the bits 0, 1, 1 on V-A5's arena. -/
theorem witness_DecodeFaultsOnMissingChild_child :
    let s := onTree (brokenNodes 255) [false, true, true]
    s.status.fault = false ∧ s.status.treeValid = true ∧ s.bitlen.toNat ≤ s.bits.length ∧
      s.bitpos.toNat + [false, true].length < s.bitlen.toNat ∧ bitsBegin s ([false, true] ++ [true]) ∧
      follow s.node s.nodeCount s.root [false, true] = some 4#8 ∧
      nodeAt s.node s.nodeCount 4#8 = some { weight := 2, sym := 0, leaf := false, left := 0, right := 255 } ∧
      nodeAt s.node s.nodeCount 255#8 = none :=
  ⟨rfl, rfl, by decide +kernel, by decide +kernel, begin_of_all _ _ (by decide +kernel), by decide +kernel, by decide +kernel,
    by decide +kernel⟩

/-- Clause 2: V-D13's altered root. -/
theorem witness_DecodeFaultsOnMissingChild_root :
    let s := { onTree sampleNodes [true] with root := 255#8 }
    s.status.fault = false ∧ s.status.treeValid = true ∧ s.bitpos.toNat < s.bitlen.toNat ∧
      s.bitlen.toNat ≤ s.bits.length ∧ s.root = 255#8 := ⟨rfl, rfl, by decide +kernel, by decide +kernel, rfl⟩

/-- V-D10: each of the two ways. -/
theorem witness_DecodeOfBadWindowIsRefused_order :
    let s := (onTree sampleNodes []).setBitpos 1#16
    s.status.fault = false ∧ s.status.treeValid = true ∧ s.bitlen.toNat < s.bitpos.toNat := ⟨rfl, rfl, by decide⟩

theorem witness_DecodeOfBadWindowIsRefused_capacity :
    let s := (onTree sampleNodes []).setBitlen 1025#16
    s.status.fault = false ∧ s.status.treeValid = true ∧ s.bits.length < s.bitlen.toNat := ⟨rfl, rfl, by decide +kernel⟩

theorem witness_DecodeOnSingleLeafReadsNoBit :
    let s := onTree loneNodes [true]
    s.status.fault = false ∧ s.status.treeValid = true ∧ s.bitpos.toNat < s.bitlen.toNat ∧
      s.bitlen.toNat ≤ s.bits.length ∧
      nodeAt s.node s.nodeCount s.root = some { weight := 0, sym := 0, leaf := true, left := 255, right := 255 } :=
  ⟨rfl, rfl, by decide +kernel, by decide +kernel, by decide +kernel⟩

theorem witness_DecodeFrame : (onTree sampleNodes [false]).status.fault = false ∧
    nextWith (exec .decode (onTree sampleNodes [false])) (fun t => decide (t.status.code ≠ .ok)) = true :=
  ⟨rfl, by decide +kernel⟩

theorem witness_DecodeIsDeterministic :
    let s1 := onTree sampleNodes [true, false]
    let s2 := coded [true, false]
    s1 ≠ s2 ∧ s1.status.fault = false ∧ s2.status.fault = false ∧ s1.bits.length = s2.bits.length ∧
      s1.status.treeValid = s2.status.treeValid ∧ s1.nodeCount = s2.nodeCount ∧ s1.root = s2.root ∧
      treeNodes s1.node s1.nodeCount = treeNodes s2.node s2.nodeCount ∧ s1.bitpos = s2.bitpos ∧ s1.bitlen = s2.bitlen ∧
      ∀ i, s1.bitpos.toNat ≤ i → i < s1.bitlen.toNat → s1.bits[i]? = s2.bits[i]? :=
  ⟨fun h => absurd (congrArg State.status h) (by decide), rfl, rfl, rfl, rfl, rfl, rfl, rfl, rfl, rfl, fun _ _ _ => rfl⟩

/-- An empty window at a position `x`, in two states that hold different bits. -/
theorem witness_DecodeIsDeterministic_empty (x : BitVec 16) :
    let s1 := (onTree sampleNodes [false]).setBitpos x |>.setBitlen x
    let s2 := (coded [true]).setBitpos x |>.setBitlen x
    s1.bits.head? ≠ s2.bits.head? ∧ s1.status.fault = false ∧ s2.status.fault = false ∧ s1.bits.length = s2.bits.length ∧
      s1.status.treeValid = s2.status.treeValid ∧ s1.nodeCount = s2.nodeCount ∧ s1.root = s2.root ∧
      treeNodes s1.node s1.nodeCount = treeNodes s2.node s2.nodeCount ∧ s1.bitpos = s2.bitpos ∧ s1.bitlen = s2.bitlen ∧
      ∀ i, s1.bitpos.toNat ≤ i → i < s1.bitlen.toNat → s1.bits[i]? = s2.bits[i]? :=
  ⟨show (onTree sampleNodes [false]).bits.head? ≠ (coded [true]).bits.head? by decide +kernel, rfl, rfl,
    by simp [coded], rfl, rfl, rfl, rfl, rfl, rfl, fun _ h1 h2 => absurd h2 (Nat.not_lt.mpr h1)⟩

/-- At the capacity an empty window is legal and incomplete, past it a bad operand (42_decode.md rules R141, R143). -/
theorem test_decode_empty_window_at_capacity :
    nextWith (exec .decode ((onTree sampleNodes []).setBitpos 1024#16 |>.setBitlen 1024#16)) (fun t =>
        decide (statusBits t.status = 0x11#8)) = true ∧
      nextWith (exec .decode ((onTree sampleNodes []).setBitpos 1500#16 |>.setBitlen 1500#16)) (fun t =>
        decide (statusBits t.status = 0x15#8)) = true := by
  decide +kernel

theorem witness_DecodeIsBoundedOnWellFormedTree : (onTree sampleNodes [true]).status.fault = false ∧
    (onTree sampleNodes [true]).status.treeValid = true ∧
    wfArena (onTree sampleNodes [true]).node (onTree sampleNodes [true]).nodeCount (onTree sampleNodes [true]).root = true ∧
    ∃ t, exec .decode (onTree sampleNodes [true]) = .next t := ⟨rfl, rfl, by decide +kernel, _, rfl⟩

theorem witness_DecodeInvertsThePath :
    let s := onTree sampleNodes [false, true, true]
    s.status.fault = false ∧ s.status.treeValid = true ∧ wfArena s.node s.nodeCount s.root = true ∧
      3 ≤ s.nodeCount.toNat ∧ s.bitlen.toNat ≤ s.bits.length ∧ s.bitpos.toNat ≤ s.bitlen.toNat ∧
      follow s.node s.nodeCount s.root [false, true, true] = some 3#8 ∧
      nodeAt s.node s.nodeCount 3#8 = some { weight := 1, sym := 67, leaf := true, left := 255, right := 255 } ∧
      bitsBegin s [false, true, true] ∧ s.bitpos.toNat + [false, true, true].length ≤ s.bitlen.toNat :=
  ⟨rfl, rfl, by decide +kernel, by decide +kernel, by decide +kernel, by decide +kernel, by decide +kernel, by decide +kernel,
    begin_of_all _ _ (by decide +kernel), by decide⟩

/-- Clause 2: a proper prefix of that path, as all of the input. -/
theorem witness_DecodeInvertsThePath_prefix :
    let s := onTree sampleNodes [false, true]
    s.status.fault = false ∧ s.status.treeValid = true ∧ wfArena s.node s.nodeCount s.root = true ∧
      3 ≤ s.nodeCount.toNat ∧ s.bitlen.toNat ≤ s.bits.length ∧ s.bitpos.toNat ≤ s.bitlen.toNat ∧
      follow s.node s.nodeCount s.root [false, true, true] = some 3#8 ∧
      nodeAt s.node s.nodeCount 3#8 = some { weight := 1, sym := 67, leaf := true, left := 255, right := 255 } ∧
      [false, true] <+: [false, true, true] ∧ [false, true] ≠ [false, true, true] ∧ bitsBegin s [false, true] ∧
      s.bitpos.toNat + [false, true].length = s.bitlen.toNat :=
  ⟨rfl, rfl, by decide +kernel, by decide +kernel, by decide +kernel, by decide +kernel, by decide +kernel,
    by decide +kernel, ⟨[true], rfl⟩,
    by decide, begin_of_all _ _ (by decide +kernel), rfl⟩

/-- The invariant's witness: V-S1's tree with its codes. -/
theorem coded_inv : Inv (coded stream) where
  capacity := by simp [coded, Config.LegalBitcap]
  noFault := rfl
  canonical := coded_canonical
  tree _ := coded_tree
  noTree h := by cases h
  codes := coded_codes
  complete _ := ⟨rfl, coded_complete⟩
  decoded := .inr rfl
  consumed := by decide

/-- V-S6: the stream of the symbols 65, 66, 67. -/
theorem witness_EncodedStreamDecodes :
    let p := stream
    Inv (coded p) ∧ (coded p).status.codesValid = true ∧ 3 ≤ (coded p).nodeCount.toNat ∧
      encodeSymbols (coded p) [65#7, 66#7, 67#7] = some p ∧ (coded p).bitlen.toNat ≤ (coded p).bits.length ∧
      (coded p).bitpos.toNat + p.length ≤ (coded p).bitlen.toNat ∧ bitsBegin (coded p) p :=
  ⟨coded_inv, rfl, by decide +kernel, by decide +kernel, by decide +kernel, by decide +kernel,
    begin_of_all _ _ (by decide +kernel)⟩

theorem witness_PlatformResetCompletes : (latched.withInbox [.reset]).inbox = .reset :: [] := rfl

theorem witness_OnlyResetClearsFaultAndTreeValid :
    (∃ t, step (issued latched (.wrr 0 0x01#16)) = .next t) ∧
      (issued latched (.wrr 0 0x01#16)).inbox.head? ≠ some .reset ∧
      (issued latched (.wrr 0 0x01#16)).status.fault = true ∧
      (issued latched (.wrr 0 0x01#16)).status.treeValid = true := ⟨⟨_, rfl⟩, by decide, rfl, rfl⟩

theorem witness_OnlyBuildWritesTheTree :
    (∃ t, step (issued State.reset (.wrr 0 0x03#16)) = .next t) ∧
      (issued State.reset (.wrr 0 0x03#16)).inbox.head? ≠ some .reset ∧
      ∀ v, (issued State.reset (.wrr 0 0x03#16)).inbox.head? = some (.host (.wrr 0 v)) →
        v.extractLsb 7 0 ≠ 0x01#8 ∧ v.extractLsb 7 0 ≠ 0x05#8 :=
  ⟨⟨_, rfl⟩, by decide, by rintro v ⟨⟩; decide⟩

theorem witness_StepKeepsTheInvariant : Inv (issued (coded stream) (.wrr 0 3#16)) ∧
    ∃ t, step (issued (coded stream) (.wrr 0 3#16)) = .next t := ⟨coded_inv.withInbox _, _, rfl⟩

theorem witness_StepKeepsCanonicalCodes : Memory.wf (issued (coded stream) (.wrr 0 1#16)) = true ∧
    ∃ t, step (issued (coded stream) (.wrr 0 1#16)) = .next t := ⟨(coded_inv.withInbox _).canonical, _, rfl⟩

theorem witness_NoCommandStopsOrFaultsUnderTheInvariant : Inv (coded stream) := coded_inv

/-- A legal capacity at each end of the range, for ResetMeetsTheInvariant. -/
theorem witness_ResetMeetsTheInvariant : Config.LegalBitcap 127 ∧ Config.LegalBitcap 65535 := by decide

/-! A run from reset: the host loads the weights, then BUILD, then ASSIGN. -/

/-- What the host issues from a state that waits for it, and its step, lead to a reachable state. -/
theorem reachable_of_perform {s t : State} (hs : Reachable s) (hi : s.inbox = []) (a : HostAction)
    (h : perform a s = .next t) : Reachable t :=
  .step _ _ (.issue _ (.host a) hs) (by
    have hw : (s.issue (.host a)).withInbox [] = s := by simp [State.issue, State.withInbox, ← hi]
    have hb : (s.issue (.host a)).inbox = [.host a] := by simp [State.issue, hi]
    rw [← h, step, takeInput, hb]
    simp only [performInput, hw])

/-- A state after the host has written the weights of a list of symbols from a table. -/
def loadWeights (t : List (Nat × Weight)) (l : List Nat) (s : State) : State :=
  l.foldl (fun s i => s.setWeight i (listedWeight t i)) s

theorem reachable_loadWeights (t : List (Nat × Weight)) (l : List Nat) (hl : ∀ i ∈ l, i < 128) (s : State)
    (hs : Reachable s) (hi : s.inbox = []) : Reachable (loadWeights t l s) := by
  induction l generalizing s with
  | nil => exact hs
  | cons i l ih =>
    refine ih (fun j hj => hl j (List.mem_cons_of_mem _ hj)) _ (reachable_of_perform hs hi (.wrw i (listedWeight t i)) ?_) hi
    simp [perform, storeAt, spaceSize, hl i List.mem_cons_self]

theorem loadWeights_frame (t : List (Nat × Weight)) (l : List Nat) (s : State) :
    loadWeights t l s = { s with weight := (loadWeights t l s).weight } := by
  induction l generalizing s with
  | nil => rfl
  | cons i l ih => exact ih (s.setWeight i (listedWeight t i))

theorem loadWeights_weight (t : List (Nat × Weight)) (l : List Nat) (s : State) (k : Nat) (hk : k < 128) :
    (loadWeights t l s).weight[k]? = if k ∈ l then some (listedWeight t k) else s.weight[k]? := by
  induction l generalizing s with
  | nil => simp [loadWeights]
  | cons i l ih =>
    rw [loadWeights, List.foldl_cons, ← loadWeights, ih]
    by_cases h : k ∈ l
    · simp [h]
    · by_cases he : k = i
      · subst he; simp [h, hk]
      · simp [h, he, Ne.symm he]

/-- The state with a table loaded is reachable: 128 writes to `WEIGHT` from reset. -/
theorem reachable_weighted (t : List (Nat × Weight)) : Reachable (weighted t) := by
  have hw : (loadWeights t (List.range 128) State.reset).weight = tabulate 128 (listedWeight t) := by
    refine Vector.ext fun k hk => Option.some.inj ?_
    rw [← Vector.getElem?_eq_getElem hk, ← Vector.getElem?_eq_getElem hk, loadWeights_weight t _ _ k hk, tabulate_getElem?]
    simp [hk]
  have h : loadWeights t (List.range 128) State.reset = weighted t := by rw [loadWeights_frame, hw, weighted]
  exact h ▸ reachable_loadWeights t _ (by simp) _ (.reset 1024 0 (by decide)) rfl

theorem reachable_built : Reachable built :=
  reachable_of_perform (reachable_weighted sampleWeights) rfl (.wrr 0 0x05#16) test_build_example

theorem nextWith_next {r : Result} {p : State → Bool} (h : nextWith r p = true) : ∃ t, r = .next t ∧ p t = true := by
  cases r with
  | next t => exact ⟨t, rfl, h⟩
  | fault x => cases h
  | refused x => cases h

/-- A reachable state with a tree of four leaves and three internal nodes. -/
theorem witness_ReachableTreesAreWellFormed : ∃ s, Reachable s ∧ s.status.treeValid = true ∧
    ((treeNodes s.node s.nodeCount).map Node.leaf = [true, true, true, true, false, false, false]) :=
  ⟨built, reachable_built, rfl, by decide +kernel⟩

theorem witness_ReachableTreesAreWellFormed_other_command :
    (∀ min, Instr.decode ≠ .build min) ∧ ∃ t, exec .decode State.reset = .next t := ⟨nofun, _, rfl⟩

/-- A reachable state with CODES_VALID, the code of symbol 67 valid, and its leaf. -/
theorem witness_ReachableCodesMatchTheTree : ∃ s, Reachable s ∧ s.status.codesValid = true ∧
    s.code[67]?.map Code.valid = some true ∧
    nodeAt s.node s.nodeCount 3#8 = some { weight := 1, sym := 67, leaf := true, left := 255, right := 255 } := by
  obtain ⟨t, ht, hp⟩ := nextWith_next (r := exec .assign built) (p := fun t =>
    decide (t.status.codesValid = true ∧ t.code[67]?.map Code.valid = some true ∧
      nodeAt t.node t.nodeCount 3#8 = some { weight := 1, sym := 67, leaf := true, left := 255, right := 255 }))
    (by decide +kernel)
  exact ⟨t, reachable_of_perform reachable_built rfl (.wrr 0 0x02#16) ht, of_decide_eq_true hp⟩

/-- The platform's reset, the event that makes the contents anew. -/
theorem witness_StepsNeverChangeTheCapacity : ∃ t, step (State.reset.withInbox [.reset]) = .next t := ⟨_, rfl⟩

end Sys2Proof.Tests
end

section
/-! SUPPORT. What BUILD and DECODE can answer, and that no command writes `BITS` (10_state.md rule R27). -/
namespace Sys2Proof.Machine

/-! ## The next states of BUILD and DECODE -/

/-- The next states of BUILD (40_build.md rule R100; 60_exceptions.md rule R177). -/
theorem exec_build_next {min : Bool} {s t : State} (h : exec (.build min) s = .next t) :
    (s.status.fault = true ∧ t = s.finish .faulted) ∨ (s.status.fault = false ∧ t = buildState min s) :=
  (unlessFaulted_next.mp h).imp_right fun ⟨hf, h⟩ => ⟨hf, (Host.Outcome.next.inj h).symm⟩

/-- The next states of DECODE (42_decode.md rule R140; 60_exceptions.md rule R177). -/
theorem exec_decode_next {s t : State} (h : exec .decode s = .next t) :
    (s.status.fault = true ∧ t = s.finish .faulted) ∨ (s.status.fault = false ∧ t = decodeState s) :=
  (unlessFaulted_next.mp h).imp_right fun ⟨hf, h⟩ => ⟨hf, (Host.Outcome.next.inj h).symm⟩

/-- Every end of the loop writes the two result registers and a code, or raises `ST_INVARIANT` (42_decode.md rule R140). -/
theorem decodeFinish_cases (s : State) (e : DecodeEnd) :
    ∃ x n, (∃ c, decodeFinish s e = (s.setDecoded x n).finish c) ∨
      decodeFinish s e = (s.setDecoded x n).raiseInvariant := by
  cases e with
  | symbol sym k => exact ⟨_, _, .inl ⟨_, rfl⟩⟩
  | outOfBits k => exact ⟨_, _, .inl ⟨_, rfl⟩⟩
  | missing k => exact ⟨_, _, .inr rfl⟩

/-- So does every path of DECODE (42_decode.md rules R140, R143; 60_exceptions.md rule R180). -/
theorem decodeState_cases (s : State) :
    ∃ x n, (∃ c, decodeState s = (s.setDecoded x n).finish c) ∨ decodeState s = (s.setDecoded x n).raiseInvariant := by
  simp only [decodeState, decodeInput]
  split
  · exact ⟨_, _, .inl ⟨_, rfl⟩⟩
  split
  · exact ⟨_, _, .inl ⟨_, rfl⟩⟩
  split
  · exact ⟨_, _, .inl ⟨_, rfl⟩⟩
  split
  · exact ⟨_, _, .inr rfl⟩
  · exact decodeFinish_cases (s.setDecoded 0xFF#8 0#8) _

/-! ## `BITS` under a command -/

@[simp] theorem buildState_bits (min : Bool) (s : State) : (buildState min s).bits = s.bits := rfl

@[simp] theorem assignFault_bits (s : State) : (assignFault s).bits = s.bits := rfl

@[simp] theorem assignDone_bits (s : State) (l : List (Symbol × List Bool)) : (assignDone s l).bits = s.bits := rfl

@[simp] theorem decodeState_bits (s : State) : (decodeState s).bits = s.bits := by
  obtain ⟨x, n, ⟨c, h⟩ | h⟩ := decodeState_cases s <;> simp [h]

/-- No command writes `BITS` (10_state.md rule R27). -/
theorem exec_bits {i : Instr} {s t : State} (h : exec i s = .next t) : t.bits = s.bits := by
  cases i with
  | build min => obtain ⟨-, rfl⟩ | ⟨-, rfl⟩ := exec_build_next h <;> simp
  | assign =>
    obtain ⟨-, rfl⟩ | ⟨-, -, rfl⟩ | ⟨-, -, h⟩ := exec_assign_next h
    · simp
    · simp
    · obtain ⟨-, rfl⟩ | ⟨l, -, -, rfl⟩ := assignWalk_next h <;> simp
  | decode => obtain ⟨-, rfl⟩ | ⟨-, rfl⟩ := exec_decode_next h <;> simp

/-- Nor does any word written to `CMD`, legal or not (30_encoding.md rule R85). -/
theorem execute_bits {w : CmdWord} {s t : State} (h : execute w s = .next t) : t.bits = s.bits := by
  obtain ⟨i, -, h⟩ | ⟨-, rfl | rfl⟩ := execute_next h
  · exact exec_bits h
  · simp
  · simp

/-! ## The capacity under an access and a step -/

/-- A host access keeps the capacity; only `WRB` writes `BITS`, one element in place (43_host_access.md rule R154). -/
theorem perform_bits_length {a : HostAction} {s t : State} (h : perform a s = .next t) :
    t.bits.length = s.bits.length := by
  obtain ⟨i, v, -, -, rfl⟩ | ⟨i, b, -, -, rfl⟩ | ⟨v, -, rfl⟩ | ⟨v, -, rfl⟩ | ⟨x, rfl⟩ | rfl | ⟨v, -, h⟩ :=
    perform_next h
  · simp
  · exact List.length_set
  · simp
  · simp
  · simp
  · rfl
  · rw [execute_bits h]

/-- Every step keeps the capacity, the platform's reset included (00_scope.md rule R13). -/
theorem step_bits_length {s t : State} (h : step s = .next t) : t.bits.length = s.bits.length := by
  obtain ⟨-, rfl⟩ | ⟨rest, -, rfl⟩ | ⟨a, rest, -, h⟩ := step_next h
  · rfl
  · simp
  · simpa using perform_bits_length h

/-- Settles O60, by the cases of a step: reset makes `BITS` anew at the length it had, an access keeps it. -/
theorem stepsNeverChangeTheCapacity : Obligations.StepsNeverChangeTheCapacity :=
  ⟨fun bitcap epoch => elements_length bitcap (Config.resetBit epoch), fun _ _ => step_bits_length⟩

end Sys2Proof.Machine
end

section
/-! SUPPORT. What a command, an access and a step can write: the cases of `exec` said once, the host's side of the state,
and the tree (10_state.md rules R23, R27, R35, R36, R39). -/
namespace Sys2Proof.Machine

/-- Everything a command can do: end with a code alone, build a tree, assign codes, or decode (30_encoding.md rule R85). -/
theorem exec_next {i : Instr} {s t : State} (h : exec i s = .next t) :
    (∃ c, t = s.finish c) ∨ (∃ min, i = .build min ∧ t = buildState min s) ∨
      (i = .assign ∧ s.status.treeValid = true ∧ assignWalk s = .next t) ∨ (i = .decode ∧ t = decodeState s) := by
  cases i with
  | build min =>
    obtain ⟨-, rfl⟩ | ⟨-, rfl⟩ := exec_build_next h
    · exact .inl ⟨_, rfl⟩
    · exact .inr (.inl ⟨min, rfl, rfl⟩)
  | assign =>
    obtain ⟨-, rfl⟩ | ⟨-, -, rfl⟩ | ⟨-, hv, h⟩ := exec_assign_next h
    · exact .inl ⟨_, rfl⟩
    · exact .inl ⟨_, rfl⟩
    · exact .inr (.inr (.inl ⟨rfl, hv, h⟩))
  | decode =>
    obtain ⟨-, rfl⟩ | ⟨-, rfl⟩ := exec_decode_next h
    · exact .inl ⟨_, rfl⟩
    · exact .inr (.inr (.inr ⟨rfl, rfl⟩))

/-- Everything a word written to `CMD` can do (30_encoding.md rule R85). -/
theorem execute_cases {w : CmdWord} {s t : State} (h : execute w s = .next t) :
    (∃ c, t = s.finish c) ∨ (∃ min, decode w = .ok (.build min) ∧ t = buildState min s) ∨
      (s.status.treeValid = true ∧ assignWalk s = .next t) ∨ t = decodeState s := by
  obtain ⟨i, hw, h⟩ | ⟨-, rfl | rfl⟩ := execute_next h
  · obtain hc | ⟨min, rfl, rfl⟩ | ⟨-, hv, h⟩ | ⟨-, rfl⟩ := exec_next h
    · exact .inl hc
    · exact .inr (.inl ⟨min, hw, rfl⟩)
    · exact .inr (.inr (.inl ⟨hv, h⟩))
    · exact .inr (.inr (.inr rfl))
  · exact .inl ⟨_, rfl⟩
  · exact .inl ⟨_, rfl⟩

/-- The words of BUILD are 0x01 and 0x05 (30_encoding.md rule R84). -/
theorem eq_of_decode_build {w : CmdWord} {min : Bool} (h : decode w = .ok (.build min)) : w = 0x01#8 ∨ w = 0x05#8 := by
  revert w min
  decide +kernel

/-! ## The host's side -/

/-- What no command may write: the host's spaces, the window and the model's own fields. -/
def State.hostSide (s : State) :
    Vector Weight 128 × List Bool × BitVec 16 × BitVec 16 × List Input × List HostValue × Nat :=
  (s.weight, s.bits, s.bitpos, s.bitlen, s.inbox, s.returned, s.resets)

theorem assignWalk_hostSide {s t : State} (h : assignWalk s = .next t) : t.hostSide = s.hostSide := by
  obtain ⟨-, rfl⟩ | ⟨l, -, -, rfl⟩ := assignWalk_next h <;> rfl

theorem decodeState_hostSide (s : State) : (decodeState s).hostSide = s.hostSide := by
  obtain ⟨x, n, ⟨c, h⟩ | h⟩ := decodeState_cases s <;> rw [h] <;> rfl

theorem exec_hostSide {i : Instr} {s t : State} (h : exec i s = .next t) : t.hostSide = s.hostSide := by
  obtain ⟨c, rfl⟩ | ⟨min, -, rfl⟩ | ⟨-, -, h⟩ | ⟨-, rfl⟩ := exec_next h
  · rfl
  · rfl
  · exact assignWalk_hostSide h
  · exact decodeState_hostSide s

/-- Settles O21, by the cases of a command: BUILD, ASSIGN and DECODE each leave the host's side as it was. -/
theorem commandsNeverWriteHostState : Obligations.CommandsNeverWriteHostState := fun i s t h => by
  simpa only [State.hostSide, Prod.mk.injEq] using exec_hostSide h

/-! ## The tree -/

/-- What only BUILD and reset may write: `NODE`, `ROOT` and `NODE_COUNT`. -/
def State.treeSide (s : State) : Vector Node 255 × NodeIdx × NodeIdx := (s.node, s.root, s.nodeCount)

theorem State.treeSide_eq_iff {s t : State} :
    t.treeSide = s.treeSide ↔ t.node = s.node ∧ t.root = s.root ∧ t.nodeCount = s.nodeCount := by
  simp only [State.treeSide, Prod.mk.injEq]

theorem assignWalk_treeSide {s t : State} (h : assignWalk s = .next t) : t.treeSide = s.treeSide := by
  obtain ⟨-, rfl⟩ | ⟨l, -, -, rfl⟩ := assignWalk_next h <;> rfl

theorem decodeState_treeSide (s : State) : (decodeState s).treeSide = s.treeSide := by
  obtain ⟨x, n, ⟨c, h⟩ | h⟩ := decodeState_cases s <;> rw [h] <;> rfl

/-- No command but BUILD writes the tree (10_state.md rule R39). -/
theorem exec_treeSide {i : Instr} {s t : State} (hi : ∀ min, i ≠ .build min) (h : exec i s = .next t) :
    t.treeSide = s.treeSide := by
  obtain ⟨c, rfl⟩ | ⟨min, rfl, -⟩ | ⟨-, -, h⟩ | ⟨-, rfl⟩ := exec_next h
  · rfl
  · exact absurd rfl (hi min)
  · exact assignWalk_treeSide h
  · exact decodeState_treeSide s

/-- A word that is none of BUILD's leaves the tree as it was (30_encoding.md rule R85). -/
theorem execute_treeSide {w : CmdWord} {s t : State} (hw : w ≠ 0x01#8 ∧ w ≠ 0x05#8) (h : execute w s = .next t) :
    t.treeSide = s.treeSide := by
  obtain ⟨c, rfl⟩ | ⟨min, hb, -⟩ | ⟨-, h⟩ | rfl := execute_cases h
  · rfl
  · exact ((eq_of_decode_build hb).elim hw.1 hw.2).elim
  · exact assignWalk_treeSide h
  · exact decodeState_treeSide s

/-- A host access other than a write of one of BUILD's words to `CMD` leaves the tree as it was (20_memory.md rule R66). -/
theorem perform_treeSide {a : HostAction} {s t : State}
    (ha : ∀ v, a = .wrr 0 v → commandWord v ≠ 0x01#8 ∧ commandWord v ≠ 0x05#8) (h : perform a s = .next t) :
    t.treeSide = s.treeSide := by
  obtain ⟨i, v, -, -, rfl⟩ | ⟨i, b, -, -, rfl⟩ | ⟨v, -, rfl⟩ | ⟨v, -, rfl⟩ | ⟨x, rfl⟩ | rfl | ⟨v, rfl, h⟩ :=
    perform_next h
  case inr.inr.inr.inr.inr.inr => exact execute_treeSide (ha v rfl) h
  all_goals rfl

/-- Settles O53, by the cases of a step: an access leaves the tree as it was but for BUILD's two words. -/
theorem onlyBuildWritesTheTree : Obligations.OnlyBuildWritesTheTree := fun s t h hreset hbuild => by
  rw [← State.treeSide_eq_iff]
  obtain ⟨-, rfl⟩ | ⟨rest, hi, -⟩ | ⟨a, rest, hi, h⟩ := step_next h
  · rfl
  · exact absurd (by rw [hi]; rfl) hreset
  · exact perform_treeSide (s := s.withInbox rest) (fun v ha => hbuild v (by rw [hi, ha]; rfl)) h

end Sys2Proof.Machine
end

section
/-! SUPPORT. Well-formed arenas: what each clause of `WF` says element by element, that every node is reached from the root,
and that a path has at most 127 steps (10_state.md rule R38). -/
namespace Sys2Proof.Machine

/-! ## The clauses of `WF` -/

theorem wfArena_iff {N : Vector Node 255} {n r : NodeIdx} :
    wfArena N n r = true ↔ wfCount n r = true ∧ wfLeaves (treeNodes N n) = true ∧ wfChildren (treeNodes N n) = true ∧
      wfParents (treeNodes N n) r = true ∧ wfSymbols (treeNodes N n) = true ∧ wfWeights (treeNodes N n) = true := by
  simp only [wfArena, Bool.and_eq_true, and_assoc]

theorem wfCount_iff {n r : NodeIdx} :
    wfCount n r = true ↔ 1 ≤ n.toNat ∧ n.toNat ≤ 255 ∧ n.toNat % 2 = 1 ∧ r.toNat < n.toNat := by
  simp only [wfCount, Bool.and_eq_true, decide_eq_true_eq, and_assoc]

/-- A test of every element of a list and its index, as the clauses make it. -/
theorem all_zipIdx_iff {α : Type} {l : List α} {p : α × Nat → Bool} :
    l.zipIdx.all p = true ↔ ∀ (i : Nat) (x : α), l[i]? = some x → p (x, i) = true := by
  simp only [List.all_eq_true, Prod.forall, List.mem_zipIdx_iff_getElem?]
  exact forall_comm

theorem wfChildren_iff {l : List Node} :
    wfChildren l = true ↔ ∀ (i : Nat) (nd : Node), l[i]? = some nd → nd.leaf = false →
      nd.left.toNat < i ∧ nd.right.toNat < i ∧ nd.left ≠ nd.right := by
  rw [wfChildren, all_zipIdx_iff]
  refine forall₃_congr fun i nd _ => ?_
  cases nd.leaf <;> simp [and_assoc]

theorem mem_childIndices {l : List Node} {j : Nat} :
    j ∈ childIndices l ↔
      ∃ (i : Nat) (nd : Node) (b : Bool), l[i]? = some nd ∧ nd.leaf = false ∧ (child nd b).toNat = j := by
  simp only [childIndices, List.mem_flatMap]
  constructor
  · rintro ⟨nd, hnd, hj⟩
    obtain ⟨i, hi⟩ := List.mem_iff_getElem?.mp hnd
    cases hl : nd.leaf with
    | true => simp [hl] at hj
    | false =>
      obtain rfl | rfl : j = nd.left.toNat ∨ j = nd.right.toNat := by simpa [hl] using hj
      · exact ⟨i, nd, false, hi, hl, rfl⟩
      · exact ⟨i, nd, true, hi, hl, rfl⟩
  · rintro ⟨i, nd, b, hi, hl, rfl⟩
    exact ⟨nd, List.mem_of_getElem? hi, by cases b <;> simp [hl, child]⟩

/-- A child stands below its parent, so below the last node (clause (c)). -/
theorem lt_of_mem_childIndices {l : List Node} (hc : wfChildren l = true) {j : Nat} (h : j ∈ childIndices l) :
    j + 1 < l.length := by
  obtain ⟨i, nd, b, hi, hl, rfl⟩ := mem_childIndices.mp h
  obtain ⟨hleft, hright, -⟩ := wfChildren_iff.mp hc i nd hi hl
  have hlen : i < l.length := (List.getElem?_eq_some_iff.mp hi).1
  cases b
  · exact Nat.lt_of_le_of_lt hleft hlen
  · exact Nat.lt_of_le_of_lt hright hlen

/-- Clause (d): the root and the child fields together are every index once. -/
theorem wfParents_iff_perm {l : List Node} {r : NodeIdx} (hc : wfChildren l = true) (hr : r.toNat < l.length) :
    wfParents l r = true ↔ (r.toNat :: childIndices l).Perm (List.range l.length) := by
  have hroot (j : Nat) : [r.toNat].count j = if j = r.toNat then 1 else 0 := by
    simp only [List.count_singleton, beq_iff_eq, eq_comm (b := j)]
  simp only [wfParents, List.all_eq_true, List.mem_range, beq_iff_eq, parentCount, List.perm_iff_count]
  refine forall_congr' fun j => ?_
  rw [← List.singleton_append, List.count_append, hroot]
  by_cases hj : j < l.length
  · rw [List.count_eq_one_of_mem List.nodup_range (List.mem_range.mpr hj)]
    split <;> simp [hj]
  · have h0 : (childIndices l).count j = 0 :=
      List.count_eq_zero.mpr fun h => hj (by have := lt_of_mem_childIndices hc h; omega)
    have hne : j ≠ r.toNat := by omega
    simp [hj, h0, hne]

/-! ## Internal nodes -/

/-- How many of the nodes before an index are internal. -/
def internalsBelow (l : List Node) (i : Nat) : Nat := (l.take i).countP (!·.leaf)

theorem internalsBelow_mono (l : List Node) {i j : Nat} (h : i ≤ j) : internalsBelow l i ≤ internalsBelow l j :=
  (List.take_prefix_take_left h).sublist.countP_le

theorem internalsBelow_succ {l : List Node} {i : Nat} {nd : Node} (hi : l[i]? = some nd) (hl : nd.leaf = false) :
    internalsBelow l (i + 1) = internalsBelow l i + 1 := by
  simp [internalsBelow, List.take_add_one, hi, hl]

/-- Every internal node has two child fields. -/
theorem childIndices_length (l : List Node) : (childIndices l).length = 2 * l.countP (!·.leaf) := by
  induction l with
  | nil => rfl
  | cons nd l ih =>
    rw [childIndices, List.flatMap_cons, List.length_append, ← childIndices, ih]
    cases hl : nd.leaf <;> simp [hl, Nat.mul_add, Nat.add_comm]

/-! ## Paths on a well-formed arena -/

section
variable {N : Vector Node 255} {n r : NodeIdx}

theorem exists_nodeAt_iff {i : NodeIdx} : (∃ nd, nodeAt N n i = some nd) ↔ i.toNat < n.toNat := by
  rw [← nodeAt_isSome_iff N n i, Option.isSome_iff_exists]

theorem lt_of_nodeAt {i : NodeIdx} {nd : Node} (hi : nodeAt N n i = some nd) : i.toNat < n.toNat :=
  exists_nodeAt_iff.mp ⟨nd, hi⟩

/-- A node of the list is the node at its index. -/
theorem exists_nodeAt_of_getElem? {i : Nat} {nd : Node} (hi : (treeNodes N n)[i]? = some nd) :
    ∃ j : NodeIdx, nodeAt N n j = some nd ∧ j.toNat = i := by
  have hlt : i < n.toNat := treeNodes_length N n ▸ (List.getElem?_eq_some_iff.mp hi).1
  have hmod : (BitVec.ofNat 8 i).toNat = i := by rw [BitVec.toNat_ofNat]; omega
  exact ⟨BitVec.ofNat 8 i, by rw [nodeAt_eq, hmod, hi], hmod⟩

theorem childIndices_perm_of_wf (h : wfArena N n r = true) :
    (r.toNat :: childIndices (treeNodes N n)).Perm (List.range n.toNat) := by
  obtain ⟨hn, -, hc, hp, -, -⟩ := wfArena_iff.mp h
  obtain ⟨-, -, -, hr⟩ := wfCount_iff.mp hn
  have hperm := (wfParents_iff_perm hc (by rwa [treeNodes_length])).mp hp
  rwa [treeNodes_length] at hperm

/-- A child of an internal node stands below it (clause (c)). -/
theorem child_lt (hc : wfChildren (treeNodes N n) = true) {i : NodeIdx} {nd : Node} (hi : nodeAt N n i = some nd)
    (hl : nd.leaf = false) (b : Bool) : (child nd b).toNat < i.toNat := by
  rw [nodeAt_eq] at hi
  obtain ⟨hleft, hright, -⟩ := wfChildren_iff.mp hc _ nd hi hl
  cases b
  · exact hleft
  · exact hright

/-- So it is there. -/
theorem exists_nodeAt_child (hc : wfChildren (treeNodes N n) = true) {i : NodeIdx} {nd : Node}
    (hi : nodeAt N n i = some nd) (hl : nd.leaf = false) (b : Bool) : ∃ nd', nodeAt N n (child nd b) = some nd' :=
  exists_nodeAt_iff.mpr ((child_lt hc hi hl b).trans (lt_of_nodeAt hi))

/-- Every node but the root has a parent (clause (d)). -/
theorem exists_parent (h : wfArena N n r = true) {j : NodeIdx} (hj : j.toNat < n.toNat) (hne : j ≠ r) :
    ∃ i nd b, nodeAt N n i = some nd ∧ nd.leaf = false ∧ child nd b = j := by
  have hmem := (childIndices_perm_of_wf h).mem_iff.mpr (List.mem_range.mpr hj)
  obtain heq | hmem := List.mem_cons.mp hmem
  · exact absurd (BitVec.eq_of_toNat_eq heq) hne
  · obtain ⟨i, nd, b, hi, hl, hb⟩ := mem_childIndices.mp hmem
    obtain ⟨k, hk, -⟩ := exists_nodeAt_of_getElem? hi
    exact ⟨k, nd, b, hk, hl, BitVec.eq_of_toNat_eq hb⟩

/-- Every node is reached from the root: go up to the parent, which stands above, until that is the root. -/
theorem exists_follow_root (h : wfArena N n r = true) (j : NodeIdx) (hj : j.toNat < n.toNat) :
    ∃ p, follow N n r p = some j := by
  obtain ⟨-, -, hc, -, -, -⟩ := wfArena_iff.mp h
  induction hk : n.toNat - j.toNat using Nat.strong_induction_on generalizing j with
  | _ k ih =>
    by_cases hr : j = r
    · subst hr
      exact ⟨[], follow_nil.mpr ⟨rfl, exists_nodeAt_iff.mpr hj⟩⟩
    · obtain ⟨i, nd, b, hi, hl, rfl⟩ := exists_parent h hj hr
      have hup := child_lt hc hi hl b
      obtain ⟨p, hp⟩ := ih (n.toNat - i.toNat) (by omega) i (lt_of_nodeAt hi) rfl
      have hstep : follow N n i [b] = some (child nd b) :=
        follow_cons.mpr ⟨nd, hi, hl, follow_nil.mpr ⟨rfl, exists_nodeAt_iff.mpr hj⟩⟩
      exact ⟨p ++ [b], (follow_append hp).trans hstep⟩

/-- Every step of a path leaves an internal node for a lower one. -/
theorem follow_length_add_internalsBelow_le (hc : wfChildren (treeNodes N n) = true) {i j : NodeIdx} {p : List Bool}
    (h : follow N n i p = some j) :
    p.length + internalsBelow (treeNodes N n) (j.toNat + 1) ≤ internalsBelow (treeNodes N n) (i.toNat + 1) := by
  induction p generalizing i with
  | nil => obtain ⟨rfl, -⟩ := follow_nil.mp h; simp
  | cons b p ih =>
    obtain ⟨nd, hi, hl, hf⟩ := follow_cons.mp h
    have hbelow := internalsBelow_mono (treeNodes N n) (i := (child nd b).toNat + 1) (child_lt hc hi hl b)
    have hhere := internalsBelow_succ (nodeAt_eq N n i ▸ hi) hl
    have := ih hf
    simp only [List.length_cons]
    omega

/-- A path from the root of a well-formed arena has at most 127 steps: that many internal nodes are there at most. -/
theorem follow_length_le_of_wf (h : wfArena N n r = true) {j : NodeIdx} {p : List Bool}
    (hp : follow N n r p = some j) : p.length ≤ 127 := by
  obtain ⟨hn, -, hc, -, -, -⟩ := wfArena_iff.mp h
  obtain ⟨-, hle, -, -⟩ := wfCount_iff.mp hn
  have hpath := follow_length_add_internalsBelow_le hc hp
  have hall : internalsBelow (treeNodes N n) (r.toNat + 1) ≤ (treeNodes N n).countP (!·.leaf) :=
    (List.take_sublist _ _).countP_le
  have hcount := (childIndices_perm_of_wf h).length_eq
  rw [List.length_cons, List.length_range, childIndices_length] at hcount
  omega

theorem exists_nodeAt_root (h : wfArena N n r = true) : ∃ nd, nodeAt N n r = some nd := by
  obtain ⟨hn, -⟩ := wfArena_iff.mp h
  obtain ⟨-, -, -, hr⟩ := wfCount_iff.mp hn
  exact exists_nodeAt_iff.mpr hr

end

end Sys2Proof.Machine
end

section
/-! SUPPORT. The codes ASSIGN writes: what the walk collects, what the table then holds, and that both are the paths of the
leaves (41_assign.md rules R121, R122; 10_state.md rules R26, R40). -/
namespace Sys2Proof.Machine

/-! ## What the walk collects -/

section
variable {N : Vector Node 255} {n r : NodeIdx}

/-- A path does not leave a leaf. -/
theorem follow_of_leaf {i j : NodeIdx} {nd : Node} {q : List Bool} (hi : nodeAt N n i = some nd) (hl : nd.leaf = true) :
    follow N n i q = some j ↔ q = [] ∧ j = i := by
  cases q with
  | nil => simp [follow_nil, hi]
  | cons b q => simp [follow_cons, hi, hl]

/-- An internal node answers leaves when both of its subtrees do, the left ones first. -/
theorem walk_internal_leaves {i : NodeIdx} {nd : Node} (hi : nodeAt N n i = some nd) (hl : nd.leaf = false) (fuel : Nat)
    (p : List Bool) (l : List (Symbol × List Bool)) :
    walk N n (fuel + 1) i p = .leaves l ↔ ∃ a b, walk N n fuel nd.left (p ++ [false]) = .leaves a ∧
      walk N n fuel nd.right (p ++ [true]) = .leaves b ∧ a ++ b = l := by
  simp only [walk, hi, hl, Bool.false_eq_true, if_false]
  cases walk N n fuel nd.left (p ++ [false]) with
  | missing => simp
  | endless => simp
  | leaves a => cases walk N n fuel nd.right (p ++ [true]) <;> simp

/-- A walk that answers leaves answers every leaf below, each with its path (41_assign.md rule R122). -/
theorem mem_of_walk_eq_leaves {fuel : Nat} {i : NodeIdx} {p : List Bool} {l : List (Symbol × List Bool)}
    (h : walk N n fuel i p = .leaves l) (e : Symbol × List Bool) :
    e ∈ l ↔ ∃ q j nd, e = (nd.sym, p ++ q) ∧ follow N n i q = some j ∧ nodeAt N n j = some nd ∧ nd.leaf = true := by
  induction fuel generalizing i p l with
  | zero => cases hi : nodeAt N n i <;> simp [walk, hi] at h
  | succ fuel ih =>
    cases hi : nodeAt N n i with
    | none => simp [walk, hi] at h
    | some nd =>
      cases hl : nd.leaf with
      | true =>
        obtain rfl : [(nd.sym, p)] = l := by simpa [walk, hi, hl] using h
        simp [follow_of_leaf hi hl, hi, hl]
      | false =>
        obtain ⟨a, b, ha, hb, rfl⟩ := (walk_internal_leaves hi hl fuel p l).mp h
        rw [List.mem_append, ih ha, ih hb]
        constructor
        · rintro (⟨q, j, nd', rfl, hf, hj⟩ | ⟨q, j, nd', rfl, hf, hj⟩)
          · exact ⟨false :: q, j, nd', by simp, follow_cons.mpr ⟨nd, hi, hl, hf⟩, hj⟩
          · exact ⟨true :: q, j, nd', by simp, follow_cons.mpr ⟨nd, hi, hl, hf⟩, hj⟩
        · rintro ⟨q, j, nd', rfl, hf, hj, hleaf⟩
          match q with
          | [] =>
            obtain ⟨rfl, -⟩ := follow_nil.mp hf
            simp_all
          | b :: q =>
            obtain ⟨nd₂, hi₂, -, hf⟩ := follow_cons.mp hf
            obtain rfl : nd = nd₂ := Option.some.inj (hi.symm.trans hi₂)
            cases b
            · exact .inl ⟨q, j, nd', by simp, hf, hj, hleaf⟩
            · exact .inr ⟨q, j, nd', by simp, hf, hj, hleaf⟩

/-- On a well-formed arena every walk returns: children stand below their parents. -/
theorem walkReturns_of_wfChildren (hc : wfChildren (treeNodes N n) = true) (i : NodeIdx) {nd : Node}
    (hi : nodeAt N n i = some nd) : WalkReturns N n i := by
  induction hk : i.toNat using Nat.strong_induction_on generalizing i nd with
  | _ k ih =>
    subst hk
    cases hl : nd.leaf with
    | true => exact .leaf i nd hi hl
    | false =>
      have below (b : Bool) : WalkReturns N n (child nd b) :=
        (exists_nodeAt_child hc hi hl b).elim fun _ h => ih _ (child_lt hc hi hl b) _ h rfl
      exact .node i nd hi hl (below false) (below true)

/-- ASSIGN's walk of a well-formed arena answers leaves (41_assign.md rule R126). -/
theorem exists_walk_eq_leaves (h : wfArena N n r = true) : ∃ l, walk N n walkFuel r [] = .leaves l := by
  obtain ⟨-, -, hc, -⟩ := wfArena_iff.mp h
  obtain ⟨nd, hr⟩ := exists_nodeAt_root h
  exact (walk_leaves_iff N n r).mpr (walkReturns_of_wfChildren hc r hr)

end

/-! ## The table -/

theorem codeTable_concat (l : List (Symbol × List Bool)) (e : Symbol × List Bool) :
    codeTable (l ++ [e]) = (codeTable l).setIfInBounds e.1.toNat (packCode e.2) := by
  simp only [codeTable, List.foldl_append, List.foldl_cons, List.foldl_nil]

/-- A valid element of the table is the packed sequence of an entry of its symbol. -/
theorem exists_mem_of_codeTable_valid {l : List (Symbol × List Bool)} {k : Nat} {c : Code}
    (hk : (codeTable l)[k]? = some c) (hv : c.valid = true) :
    ∃ p, (BitVec.ofNat 7 k, p) ∈ l ∧ k < 128 ∧ c = packCode p := by
  induction l using List.reverseRecOn with
  | nil =>
    rw [show codeTable [] = emptyCodes from rfl, emptyCodes_getElem?] at hk
    split at hk
    · cases hk; cases hv
    · cases hk
  | append_singleton l e ih =>
    rw [codeTable_concat, Vector.getElem?_setIfInBounds] at hk
    split at hk
    · next he =>
      subst he
      have hlt : e.1.toNat < 128 := e.1.isLt
      rw [if_pos hlt] at hk
      exact ⟨e.2, by simp, hlt, (Option.some.inj hk).symm⟩
    · obtain ⟨p, hp, hlt, rfl⟩ := ih hk
      exact ⟨p, List.mem_append_left _ hp, hlt, rfl⟩

/-- The symbol of every entry has a valid element. -/
theorem codeTable_valid_of_mem {l : List (Symbol × List Bool)} {e : Symbol × List Bool} (he : e ∈ l) :
    ∃ c, (codeTable l)[e.1.toNat]? = some c ∧ c.valid = true := by
  induction l using List.reverseRecOn with
  | nil => cases he
  | append_singleton l d ih =>
    have hlt : e.1.toNat < 128 := e.1.isLt
    rw [codeTable_concat, Vector.getElem?_setIfInBounds]
    by_cases hd : d.1.toNat = e.1.toNat
    · exact ⟨packCode d.2, by simp [hd, hlt], rfl⟩
    · rw [if_neg hd]
      obtain he | he := List.mem_append.mp he
      · exact ih he
      · exact absurd (by rw [List.mem_singleton.mp he]) hd

/-! ## The two halves of 10_state.md rule R40 -/

theorem leafAtPath_iff {s : State} {k : Nat} {p : List Bool} :
    leafAtPath s k p = true ↔ ∃ j nd, follow s.node s.nodeCount s.root p = some j ∧
      nodeAt s.node s.nodeCount j = some nd ∧ nd.leaf = true ∧ nd.sym.toNat = k := by
  unfold leafAtPath
  cases follow s.node s.nodeCount s.root p with
  | none => simp
  | some j => cases hj : nodeAt s.node s.nodeCount j <;> simp [hj]

theorem codesAgree_iff {s : State} :
    codesAgree s = true ↔ ∀ (k : Nat) (c : Code), s.code[k]? = some c → c.valid = true →
      leafAtPath s k (codeSequence c) = true := by
  rw [codesAgree, all_zipIdx_iff]
  refine forall₂_congr fun k c => ?_
  rw [Vector.getElem?_toList]
  cases c.valid <;> simp

theorem codesComplete_iff {s : State} :
    codesComplete s = true ↔ ∀ nd ∈ treeNodes s.node s.nodeCount, nd.leaf = true →
      ∃ c, s.code[nd.sym.toNat]? = some c ∧ c.valid = true := by
  simp only [codesComplete, List.all_eq_true]
  refine forall₂_congr fun nd _ => ?_
  cases nd.leaf <;> simp

/-- An empty table agrees with every tree. -/
theorem codesAgree_of_empty {s : State} (h : s.code = emptyCodes) : codesAgree s = true := by
  refine codesAgree_iff.mpr fun k c hk hv => ?_
  rw [h, emptyCodes_getElem?] at hk
  split at hk
  · cases hk; cases hv
  · cases hk

/-! ## ASSIGN on a well-formed arena -/

section
variable {s : State} {l : List (Symbol × List Bool)} (h : wfArena s.node s.nodeCount s.root = true)
  (hl : walk s.node s.nodeCount walkFuel s.root [] = .leaves l)
include h hl

/-- What the walk collects has at most 127 bits (42_decode.md rule R146). -/
theorem length_le_of_mem_leaves : ∀ e ∈ l, e.2.length ≤ 127 := fun e he => by
  obtain ⟨q, j, nd, rfl, hf, -⟩ := (mem_of_walk_eq_leaves hl e).mp he
  exact follow_length_le_of_wf h hf

theorem assignDone_wf : Memory.wf (assignDone s l) = true :=
  setCodes_table_wf s l (length_le_of_mem_leaves h hl)

theorem codesAgree_assignDone : codesAgree (assignDone s l) = true := by
  refine codesAgree_iff.mpr fun k c hk hv => leafAtPath_iff.mpr ?_
  obtain ⟨p, hp, hlt, rfl⟩ := exists_mem_of_codeTable_valid (l := l) hk hv
  rw [codeSequence_packCode p (length_le_of_mem_leaves h hl _ hp)]
  obtain ⟨q, j, nd, he, hf, hj, hleaf⟩ := (mem_of_walk_eq_leaves hl _).mp hp
  obtain ⟨hsym, rfl⟩ := Prod.mk.inj he
  exact ⟨j, nd, hf, hj, hleaf, by rw [← hsym, BitVec.toNat_ofNat, Nat.mod_eq_of_lt hlt]⟩

theorem codesComplete_assignDone : codesComplete (assignDone s l) = true := by
  refine codesComplete_iff.mpr fun nd hnd hleaf => ?_
  obtain ⟨i, hi⟩ := List.mem_iff_getElem?.mp hnd
  obtain ⟨j, hj, -⟩ := exists_nodeAt_of_getElem? hi
  obtain ⟨p, hp⟩ := exists_follow_root h j (lt_of_nodeAt hj)
  exact codeTable_valid_of_mem ((mem_of_walk_eq_leaves hl (nd.sym, p)).mpr ⟨p, j, nd, rfl, hp, hj, hleaf⟩)

end

/-! ## The canonical form under a step -/

theorem assignWalk_wf {s t : State} (h : assignWalk s = .next t) : Memory.wf t = true := by
  obtain ⟨-, rfl⟩ | ⟨l, hl, hwf, rfl⟩ := assignWalk_next h
  · exact setCodes_empty_wf s
  · exact assignDone_wf hwf hl

theorem decodeState_code (s : State) : (decodeState s).code = s.code := by
  obtain ⟨x, n, ⟨c, h⟩ | h⟩ := decodeState_cases s <;> rw [h] <;> rfl

theorem execute_wf {w : CmdWord} {s t : State} (hs : Memory.wf s = true) (h : execute w s = .next t) :
    Memory.wf t = true := by
  obtain ⟨c, rfl⟩ | ⟨min, -, rfl⟩ | ⟨-, h⟩ | rfl := execute_cases h
  · exact hs
  · exact setCodes_empty_wf s
  · exact assignWalk_wf h
  · rwa [memory_wf_of_code (decodeState_code s)]

theorem perform_wf {a : HostAction} {s t : State} (hs : Memory.wf s = true) (h : perform a s = .next t) :
    Memory.wf t = true := by
  obtain ⟨i, v, -, -, rfl⟩ | ⟨i, b, -, -, rfl⟩ | ⟨v, -, rfl⟩ | ⟨v, -, rfl⟩ | ⟨x, rfl⟩ | rfl | ⟨v, -, h⟩ :=
    perform_next h
  case inr.inr.inr.inr.inr.inr => exact execute_wf hs h
  all_goals exact hs

/-- Settles O56, by the cases of a step: only ASSIGN writes codes that are not absent, and it does so on a well-formed arena,
whose paths fit in a code. -/
theorem stepKeepsCanonicalCodes : Obligations.StepKeepsCanonicalCodes := fun s t hs h => by
  obtain ⟨-, rfl⟩ | ⟨rest, -, rfl⟩ | ⟨a, rest, -, h⟩ := step_next h
  · exact hs
  · exact platformReset_wf _
  · exact perform_wf (s := s.withInbox rest) hs h

end Sys2Proof.Machine
end

section
/-! SUPPORT. The Tree Builder: the leaves are the included symbols, every merge keeps an invariant of the queue and the nodes
created so far, and the tree it ends with is well formed and has the shape of 10_state.md rule R39. -/
namespace Sys2Proof.Machine

/-! ## The leaves -/

theorem zipIdx_toList_weights (w : Vector Weight 128) :
    w.toList.zipIdx = (List.range 128).map fun k => (w[k]?.getD 0#32, k) := by
  refine List.ext_getElem? fun k => ?_
  by_cases hk : k < 128 <;> simp [hk]

/-- The leaves are those of the included symbols, in ascending order (40_build.md rule R101). -/
theorem leafNodes_eq (w : Vector Weight 128) (min : Bool) :
    leafNodes w min = (includedSymbols w min).map fun k => leafNode (w[k]?.getD 0#32) k := by
  rw [leafNodes, includedSymbols, zipIdx_toList_weights, List.filterMap_map, ← List.filterMap_eq_map,
    List.filterMap_filter]
  refine List.filterMap_congr fun k hk => ?_
  have hk : k < 128 := List.mem_range.mp hk
  simp [included, hk]

theorem lt_of_mem_includedSymbols {w : Vector Weight 128} {min : Bool} {k : Nat} (h : k ∈ includedSymbols w min) :
    k < 128 := List.mem_range.mp (List.mem_of_mem_filter h)

theorem includedSymbols_pairwise (w : Vector Weight 128) (min : Bool) : (includedSymbols w min).Pairwise (· < ·) :=
  List.pairwise_lt_range.filter _

/-- Symbol 0 always has a leaf (40_build.md rule R101). -/
theorem includedSymbols_head? (w : Vector Weight 128) (min : Bool) : (includedSymbols w min).head? = some 0 := by
  rw [includedSymbols, List.range_succ_eq_map, List.filter_cons_of_pos (by simp), List.head?_cons]

theorem leafNodes_symbols (w : Vector Weight 128) (min : Bool) :
    (leafNodes w min).map (fun nd => nd.sym.toNat) = includedSymbols w min := by
  rw [leafNodes_eq, List.map_map]
  refine (List.map_congr_left fun k hk => ?_).trans (List.map_id _)
  exact Nat.mod_eq_of_lt (lt_of_mem_includedSymbols hk)

theorem leafNodes_length (w : Vector Weight 128) (min : Bool) :
    1 ≤ (leafNodes w min).length ∧ (leafNodes w min).length ≤ 128 := by
  rw [leafNodes_eq, List.length_map]
  constructor
  · exact List.length_pos_iff.mpr fun h => by simpa [h] using includedSymbols_head? w min
  · exact (List.length_filter_le _ _).trans_eq List.length_range

/-- What every leaf is (40_build.md rule R100). -/
theorem leaf_of_mem_leafNodes {w : Vector Weight 128} {min : Bool} {nd : Node} (h : nd ∈ leafNodes w min) :
    nd.leaf = true ∧ nd.left = nullIdx ∧ nd.right = nullIdx ∧ nd.weight.toNat ≤ 2 ^ 32 - 1 := by
  rw [leafNodes_eq] at h
  obtain ⟨k, -, rfl⟩ := List.mem_map.mp h
  refine ⟨rfl, rfl, rfl, ?_⟩
  simp only [leafNode, leafWeight, BitVec.toNat_setWidth]
  exact (Nat.mod_le _ _).trans (Nat.le_sub_one_of_lt (w[k]?.getD 0#32).isLt)

theorem leaf_eq_of_mem_leafNodes {w : Vector Weight 128} {min : Bool} {nd : Node} (h : nd ∈ leafNodes w min) :
    nd.leaf = true := (leaf_of_mem_leafNodes h).1

/-! ## The merge loop, one round at a time -/

theorem mergeLoop_last {q : List Queued} {a : Queued} (h : extractMin q = some (a, [])) (fuel : Nat) (made : List Node) :
    mergeLoop fuel q made = (made, a.2) := by
  unfold mergeLoop
  simp [h, extractMin]

theorem mergeLoop_merge {q q1 q2 : List Queued} {a b : Queued} (ha : extractMin q = some (a, q1))
    (hb : extractMin q1 = some (b, q2)) (fuel : Nat) (made : List Node) :
    mergeLoop (fuel + 1) q made =
      mergeLoop fuel ((mergeNode a b, made.length) :: q2) (made ++ [mergeNode a b]) := by
  rw [mergeLoop.eq_def]
  simp [ha, hb]

/-! ## One more node in the list -/

@[simp] theorem childIndices_append (l l' : List Node) : childIndices (l ++ l') = childIndices l ++ childIndices l' :=
  List.flatMap_append

theorem childIndices_of_leaves {l : List Node} (h : ∀ nd ∈ l, nd.leaf = true) : childIndices l = [] :=
  List.flatMap_eq_nil_iff.mpr fun nd hnd => if_pos (h nd hnd)

theorem weightAt_of_getElem? {l : List Node} {i : Nat} {nd : Node} (h : l[i]? = some nd) :
    weightAt l i = nd.weight.toNat := by
  simp [weightAt, h]

theorem weightAt_append_left {l l' : List Node} {i : Nat} (h : i < l.length) : weightAt (l ++ l') i = weightAt l i := by
  simp only [weightAt, List.getElem?_append_left h]

theorem wfChildren_concat {l : List Node} {nd : Node} (hc : wfChildren l = true) (hl : nd.left.toNat < l.length)
    (hr : nd.right.toNat < l.length) (hne : nd.left ≠ nd.right) : wfChildren (l ++ [nd]) = true := by
  rw [wfChildren, List.zipIdx_append, List.all_append, ← wfChildren, hc]
  simp [hl, hr, hne]

theorem wfWeights_iff {l : List Node} :
    wfWeights l = true ↔ ∀ nd ∈ l, nd.leaf = false →
      nd.weight.toNat = weightAt l nd.left.toNat + weightAt l nd.right.toNat := by
  simp only [wfWeights, List.all_eq_true]
  refine forall₂_congr fun nd _ => ?_
  cases nd.leaf <;> simp

theorem wfWeights_concat {l : List Node} {nd : Node} (hw : wfWeights l = true) (hc : wfChildren (l ++ [nd]) = true)
    (hnd : nd.weight.toNat = weightAt l nd.left.toNat + weightAt l nd.right.toNat) : wfWeights (l ++ [nd]) = true := by
  refine wfWeights_iff.mpr fun x hx hleaf => ?_
  obtain ⟨i, hi⟩ := List.mem_iff_getElem?.mp hx
  have hlen : i < l.length + 1 := by simpa using (List.getElem?_eq_some_iff.mp hi).1
  obtain ⟨hleft, hright, -⟩ := wfChildren_iff.mp hc i x hi hleaf
  rw [weightAt_append_left (by omega), weightAt_append_left (by omega)]
  obtain hx | hx := List.mem_append.mp hx
  · exact wfWeights_iff.mp hw x hx hleaf
  · rw [List.mem_singleton.mp hx, hnd]

/-! ## The invariant of the merge loop -/

/-- What holds of the queue `q` and the nodes `made` so far, between two merges. -/
structure MergeInv (leaves : List Node) (q : List Queued) (made : List Node) : Prop where
  /-- The leaves come first and only internal nodes are added (40_build.md rule R108). -/
  leavesFirst : ∃ internals, made = leaves ++ internals ∧ ∀ nd ∈ internals, nd.leaf = false
  /-- Every merge takes two nodes from the queue and puts one in (40_build.md rule R104). -/
  count : made.length + q.length = 2 * leaves.length
  /-- A node in the queue stands at its index. -/
  queued : ∀ x ∈ q, made[x.2]? = some x.1
  /-- Every node is in the queue or is the child of one node, in one of its two fields. -/
  indices : (q.map Prod.snd ++ childIndices made).Perm (List.range made.length)
  children : wfChildren made = true
  weights : wfWeights made = true
  /-- No sum overflows (00_scope.md rule R12). -/
  total : (q.map fun x => x.1.weight.toNat).sum < 2 ^ 39

/-- The order in which the list holds the queue means nothing. -/
theorem MergeInv.perm {leaves q q' made} (h : MergeInv leaves q made) (hq : q.Perm q') : MergeInv leaves q' made where
  leavesFirst := h.leavesFirst
  count := hq.length_eq ▸ h.count
  queued x hx := h.queued x (hq.mem_iff.mpr hx)
  indices := ((hq.map _).symm.append_right _).trans h.indices
  children := h.children
  weights := h.weights
  total := by rw [← (hq.map _).sum_eq]; exact h.total

theorem mergeNode_left {a b : Queued} (h : a.2 < 256) : (mergeNode a b).left.toNat = a.2 := by
  simp only [mergeNode, BitVec.toNat_ofNat]; omega

theorem mergeNode_right {a b : Queued} (h : b.2 < 256) : (mergeNode a b).right.toNat = b.2 := by
  simp only [mergeNode, BitVec.toNat_ofNat]; omega

theorem mergeNode_weight {a b : Queued} (h : a.1.weight.toNat + b.1.weight.toNat < 2 ^ 39) :
    (mergeNode a b).weight.toNat = a.1.weight.toNat + b.1.weight.toNat := by
  simp only [mergeNode, BitVec.toNat_add]; omega

/-- The two removed indices become child fields, and the new one takes their place in the queue. -/
theorem merge_indices_perm (a b m : Nat) (queue children : List Nat) :
    ((m :: queue) ++ (children ++ [a, b])).Perm ((a :: b :: queue ++ children) ++ [m]) := by
  refine List.perm_iff_count.mpr fun j => ?_
  simp only [List.count_append, List.count_cons, List.count_nil, List.cons_append]
  omega

/-- A merge keeps the invariant. -/
theorem MergeInv.merge {leaves q made} {a b : Queued} (h : MergeInv leaves (a :: b :: q) made)
    (hlen : leaves.length ≤ 128) : MergeInv leaves ((mergeNode a b, made.length) :: q) (made ++ [mergeNode a b]) := by
  have hcount : made.length + (q.length + 2) = 2 * leaves.length := h.count
  have ha := h.queued a (by simp)
  have hb := h.queued b (by simp)
  have halt : a.2 < made.length := (List.getElem?_eq_some_iff.mp ha).1
  have hblt : b.2 < made.length := (List.getElem?_eq_some_iff.mp hb).1
  have hleft : (mergeNode a b).left.toNat = a.2 := mergeNode_left (by omega)
  have hright : (mergeNode a b).right.toNat = b.2 := mergeNode_right (by omega)
  have htotal : a.1.weight.toNat + (b.1.weight.toNat + (q.map fun x => x.1.weight.toNat).sum) < 2 ^ 39 := h.total
  have hweight : (mergeNode a b).weight.toNat = a.1.weight.toNat + b.1.weight.toNat := mergeNode_weight (by omega)
  have hne : a.2 ≠ b.2 := by
    have hnodup := h.indices.nodup_iff.mpr List.nodup_range
    simp only [List.map_cons, List.cons_append, List.nodup_cons, List.mem_cons, not_or] at hnodup
    exact hnodup.1.1
  have hc : wfChildren (made ++ [mergeNode a b]) = true :=
    wfChildren_concat h.children (hleft ▸ halt) (hright ▸ hblt) fun heq => hne (by rw [← hleft, heq, hright])
  obtain ⟨internals, hmade, hint⟩ := h.leavesFirst
  exact {
    leavesFirst := ⟨internals ++ [mergeNode a b], by rw [hmade, List.append_assoc], fun nd hnd =>
      (List.mem_append.mp hnd).elim (hint nd) fun hm => by rw [List.mem_singleton.mp hm]; rfl⟩
    count := by simp only [List.length_append, List.length_cons, List.length_nil]; omega
    queued := fun x hx => by
      obtain rfl | hx := List.mem_cons.mp hx
      · simp
      · have hold := h.queued x (by simp [hx])
        rw [List.getElem?_append_left (List.getElem?_eq_some_iff.mp hold).1, hold]
    indices := by
      have hnew : childIndices [mergeNode a b] = [a.2, b.2] := by
        rw [← hleft, ← hright]; rfl
      rw [childIndices_append, hnew, List.length_append, List.length_singleton, List.range_succ]
      exact (merge_indices_perm ..).trans (h.indices.append_right _)
    children := hc
    weights := wfWeights_concat h.weights hc
      (by rw [hleft, hright, weightAt_of_getElem? ha, weightAt_of_getElem? hb, hweight])
    total := by simp only [List.map_cons, List.sum_cons, hweight]; omega }

/-- The merge loop ends with the root alone in the queue, whatever it is, and its index as the root's: the bound on the merges
is not met (log entry 16). -/
theorem MergeInv.mergeLoop {leaves q made} {fuel : Nat} (h : MergeInv leaves q made) (hlen : leaves.length ≤ 128)
    (hq : q ≠ []) (hfuel : q.length ≤ fuel + 1) :
    ∃ root, MergeInv leaves [root] (mergeLoop fuel q made).1 ∧ (mergeLoop fuel q made).2 = root.2 := by
  induction fuel generalizing q made with
  | zero =>
    obtain ⟨a, rfl⟩ := List.length_eq_one_iff.mp
      (Nat.le_antisymm hfuel (List.length_pos_iff.mpr hq))
    rw [mergeLoop_last (a := a) rfl]
    exact ⟨a, h, rfl⟩
  | succ fuel ih =>
    cases ha : extractMin q with
    | none => exact absurd (extractMin_eq_none.mp ha) hq
    | some x =>
      obtain ⟨a, q1⟩ := x
      cases hb : extractMin q1 with
      | none =>
        obtain rfl := extractMin_eq_none.mp hb
        rw [mergeLoop_last ha]
        exact ⟨a, h.perm (extractMin_perm ha).symm, rfl⟩
      | some y =>
        obtain ⟨b, q2⟩ := y
        have hperm : q.Perm (a :: b :: q2) := (extractMin_perm ha).symm.trans ((extractMin_perm hb).symm.cons a)
        have := hperm.length_eq
        rw [mergeLoop_merge ha hb]
        exact ih ((h.perm hperm).merge hlen) (List.cons_ne_nil _ _) (by simp_all)

/-- The invariant holds of the leaves, all of them in the queue. -/
theorem mergeInv_leafNodes (w : Vector Weight 128) (min : Bool) :
    MergeInv (leafNodes w min) (leafNodes w min).zipIdx (leafNodes w min) where
  leavesFirst := ⟨[], by simp, by simp⟩
  count := by rw [List.length_zipIdx]; omega
  queued x hx := List.mem_zipIdx_iff_getElem?.mp hx
  indices := by
    rw [childIndices_of_leaves fun _ => leaf_eq_of_mem_leafNodes, List.append_nil, List.zipIdx_map_snd,
      ← List.range_eq_range']
  children := wfChildren_iff.mpr fun i nd hi hl => by
    simp [leaf_of_mem_leafNodes (List.mem_of_getElem? hi)] at hl
  weights := wfWeights_iff.mpr fun nd hnd hl => by simp [leaf_of_mem_leafNodes hnd] at hl
  total := by
    have hsum := List.sum_le_card_nsmul ((leafNodes w min).zipIdx.map fun x => x.1.weight.toNat) (2 ^ 32 - 1) fun m hm => by
      obtain ⟨x, hx, rfl⟩ := List.mem_map.mp hm
      obtain ⟨-, -, -, hweight⟩ := leaf_of_mem_leafNodes (List.fst_mem_of_mem_zipIdx hx)
      exact hweight
    have hle := (leafNodes_length w min).2
    rw [List.length_map, List.length_zipIdx, smul_eq_mul] at hsum
    exact hsum.trans_lt (by omega)

/-! ## The tree BUILD ends with -/

/-- BUILD's tree: the leaves first, then the internal nodes, and the root alone left in the queue (40_build.md rule R108). -/
theorem mergeInv_buildTree (w : Vector Weight 128) (min : Bool) :
    ∃ root, MergeInv (leafNodes w min) [root] (buildTree w min).1 ∧ (buildTree w min).2 = root.2 := by
  obtain ⟨hpos, hle⟩ := leafNodes_length w min
  refine (mergeInv_leafNodes w min).mergeLoop hle (fun h => ?_) (by simp)
  simp [List.zipIdx_eq_nil_iff.mp h] at hpos

section
variable {leaves made : List Node} {root : Queued} (h : MergeInv leaves [root] made)
include h

theorem MergeInv.made_length : made.length + 1 = 2 * leaves.length := h.count

/-- The root is the last node created: nothing has it as a child (40_build.md rule R108). -/
theorem MergeInv.root_eq : root.2 + 1 = made.length := by
  have hlt : root.2 < made.length := (List.getElem?_eq_some_iff.mp (h.queued root (by simp))).1
  have hmem := h.indices.mem_iff.mpr (List.mem_range.mpr (Nat.sub_one_lt_of_lt hlt))
  obtain heq | hchild := List.mem_cons.mp hmem
  · omega
  · have := lt_of_mem_childIndices h.children hchild
    omega

theorem MergeInv.filter_leaf (hleaf : ∀ nd ∈ leaves, nd.leaf = true) : made.filter Node.leaf = leaves := by
  obtain ⟨internals, rfl, hint⟩ := h.leavesFirst
  rw [List.filter_append, List.filter_eq_self.mpr hleaf,
    List.filter_eq_nil_iff.mpr fun nd hnd => by simp [hint nd hnd], List.append_nil]

theorem MergeInv.leavesFirst_eq (hleaf : ∀ nd ∈ leaves, nd.leaf = true) : Machine.leavesFirst made = true := by
  have hcount : leafCount made = leaves.length := by rw [leafCount, h.filter_leaf hleaf]
  refine all_zipIdx_iff.mpr fun i nd hi => ?_
  rw [hcount]
  obtain ⟨internals, rfl, hint⟩ := h.leavesFirst
  by_cases hlt : i < leaves.length
  · rw [List.getElem?_append_left hlt] at hi
    simp [hleaf nd (List.mem_of_getElem? hi), hlt]
  · rw [List.getElem?_append_right (by omega)] at hi
    simp [hint nd (List.mem_of_getElem? hi), hlt]

end

/-! The clauses of `WF` and the shape, of the list of nodes. -/

section
variable (w : Vector Weight 128) (min : Bool)

theorem filter_leaf_buildTree : (buildTree w min).1.filter Node.leaf = leafNodes w min := by
  obtain ⟨root, hinv, -⟩ := mergeInv_buildTree w min
  exact hinv.filter_leaf fun _ => leaf_eq_of_mem_leafNodes

theorem leafSymbols_buildTree : leafSymbols (buildTree w min).1 = includedSymbols w min := by
  rw [leafSymbols, filter_leaf_buildTree, leafNodes_symbols]

theorem leavesFirst_buildTree : leavesFirst (buildTree w min).1 = true := by
  obtain ⟨root, hinv, -⟩ := mergeInv_buildTree w min
  exact hinv.leavesFirst_eq fun _ => leaf_eq_of_mem_leafNodes

theorem leavesAscending_buildTree : leavesAscending (buildTree w min).1 = true := by
  rw [leavesAscending, leafSymbols_buildTree, includedSymbols_head?]
  simp [includedSymbols_pairwise w min]

theorem wfLeaves_buildTree : wfLeaves (buildTree w min).1 = true := by
  refine List.all_eq_true.mpr fun nd hnd => ?_
  cases hl : nd.leaf with
  | false => rfl
  | true =>
    have hmem : nd ∈ leafNodes w min := filter_leaf_buildTree w min ▸ List.mem_filter.mpr ⟨hnd, hl⟩
    obtain ⟨-, hleft, hright, -⟩ := leaf_of_mem_leafNodes hmem
    simp [hleft, hright]

theorem wfSymbols_buildTree : wfSymbols (buildTree w min).1 = true := by
  have hnodup : (((buildTree w min).1.filter Node.leaf).map Node.sym).Nodup := by
    refine List.Nodup.of_map BitVec.toNat ?_
    rw [List.map_map, filter_leaf_buildTree]
    exact leafNodes_symbols w min ▸ (includedSymbols_pairwise w min).imp fun h => Nat.ne_of_lt h
  simpa [wfSymbols] using hnodup

end

/-! ## The state BUILD leaves -/

/-- The nodes of a tree just written are the list that was written (10_state.md rule R25). -/
theorem treeNodes_overwriteArena (old : Vector Node 255) {l : List Node} (hl : l.length ≤ 255) :
    treeNodes (overwriteArena old l) (BitVec.ofNat 8 l.length) = l := by
  rw [treeNodes, overwriteArena_toList old l hl, BitVec.toNat_ofNat, Nat.mod_eq_of_lt (by omega), List.take_left']
  rfl

section
variable (min : Bool) (s : State)

/-- The counts of 40_build.md rule R108. -/
theorem buildTree_counts :
    (buildTree s.weight min).1.length + 1 = 2 * (leafNodes s.weight min).length ∧
      (buildTree s.weight min).2 + 1 = (buildTree s.weight min).1.length := by
  obtain ⟨root, hinv, hroot⟩ := mergeInv_buildTree s.weight min
  exact ⟨hinv.made_length, hroot ▸ hinv.root_eq⟩

theorem buildTree_length_le : (buildTree s.weight min).1.length ≤ 255 := by
  have := (buildTree_counts min s).1
  have := (leafNodes_length s.weight min).2
  omega

theorem buildState_nodes :
    treeNodes (buildState min s).node (buildState min s).nodeCount = (buildTree s.weight min).1 :=
  treeNodes_overwriteArena s.node (buildTree_length_le min s)

theorem buildState_nodeCount : (buildState min s).nodeCount.toNat = (buildTree s.weight min).1.length :=
  Nat.mod_eq_of_lt (Nat.lt_succ_of_le (buildTree_length_le min s))

theorem buildState_root : (buildState min s).root.toNat = (buildTree s.weight min).2 := by
  have := buildTree_length_le min s
  have := (buildTree_counts min s).2
  exact Nat.mod_eq_of_lt (by omega)

theorem buildState_wfArena :
    wfArena (buildState min s).node (buildState min s).nodeCount (buildState min s).root = true := by
  obtain ⟨root, hinv, hroot⟩ := mergeInv_buildTree s.weight min
  obtain ⟨hcount, hlast⟩ := buildTree_counts min s
  obtain ⟨hpos, -⟩ := leafNodes_length s.weight min
  have hle := buildTree_length_le min s
  have hperm : ((buildState min s).root.toNat :: childIndices (buildTree s.weight min).1).Perm
      (List.range (buildTree s.weight min).1.length) := by
    rw [buildState_root, hroot]
    exact hinv.indices
  rw [wfArena_iff, buildState_nodes, wfCount_iff, buildState_nodeCount, wfParents_iff_perm hinv.children
    (by rw [buildState_root]; omega)]
  refine ⟨⟨?_, hle, ?_, ?_⟩, wfLeaves_buildTree _ _, hinv.children, hperm, wfSymbols_buildTree _ _, hinv.weights⟩
  · omega
  · omega
  · rw [buildState_root]
    omega

theorem buildState_treeShape :
    treeShape (buildState min s).node (buildState min s).nodeCount (buildState min s).root = true := by
  obtain ⟨hcount, hlast⟩ := buildTree_counts min s
  rw [treeShape, buildState_nodes, leavesFirst_buildTree, leavesAscending_buildTree, leafCount, filter_leaf_buildTree,
    buildState_nodeCount, buildState_root]
  simp [hcount, hlast]

end

end Sys2Proof.Machine
end

section
/-! SUPPORT. The invariant under every event: reset, the three commands, the host's accesses (10_state.md rules R26, R33, R34,
R38 to R40), and what it says of every reachable state. -/
namespace Sys2Proof.Machine

/-! ## DECODE on a well-formed arena -/

/-- The loop follows a path of the arena to its end, on a leaf or out of bits: no child is missing (42_decode.md rule
R146). -/
theorem exists_follow_of_decodeLoop {N : Vector Node 255} {n i : NodeIdx} {nd : Node}
    (hc : wfChildren (treeNodes N n) = true) (hi : nodeAt N n i = some nd) (input : List Bool) (k : Nat) :
    ∃ q j, follow N n i q = some j ∧ ((∃ sym, decodeLoop N n input nd k = .symbol sym (k + q.length)) ∨
      decodeLoop N n input nd k = .outOfBits (k + q.length)) := by
  induction input generalizing i nd k with
  | nil =>
    refine ⟨[], i, follow_nil.mpr ⟨rfl, nd, hi⟩, ?_⟩
    cases hl : nd.leaf <;> simp [decodeLoop, hl]
  | cons b rest ih =>
    cases hl : nd.leaf with
    | true => exact ⟨[], i, follow_nil.mpr ⟨rfl, nd, hi⟩, .inl ⟨nd.sym, by simp [decodeLoop, hl]⟩⟩
    | false =>
      obtain ⟨nd', hi'⟩ := exists_nodeAt_child hc hi hl b
      obtain ⟨q, j, hf, hend⟩ := ih hi' (k + 1)
      refine ⟨b :: q, j, follow_cons.mpr ⟨nd, hi, hl, hf⟩, ?_⟩
      have hloop : decodeLoop N n (b :: rest) nd k = decodeLoop N n rest nd' (k + 1) := by
        simp [decodeLoop, hl, hi']
      rwa [hloop, List.length_cons, Nat.add_comm q.length 1, ← Nat.add_assoc]

theorem symbolByte_le (sym : Symbol) : (symbolByte sym).toNat ≤ 127 := by
  have := sym.isLt
  rw [symbolByte, BitVec.toNat_setWidth]
  omega

theorem consumedByte_le {k : Nat} (h : k ≤ 127) : (consumedByte k).toNat ≤ 127 := by
  rw [consumedByte, if_pos (by omega), BitVec.toNat_ofNat]
  omega

/-- On a tree that is well formed, and before the first BUILD, DECODE raises no fault and leaves result registers in their
ranges (10_state.md rules R33, R34; 42_decode.md rule R146). -/
theorem exists_decodeState_eq_finish {s : State}
    (h : s.status.treeValid = true → wfArena s.node s.nodeCount s.root = true) :
    ∃ x n c, decodeState s = (s.setDecoded x n).finish c ∧ c ≠ .invariant ∧ (x.toNat ≤ 127 ∨ x = 0xFF#8) ∧
      n.toNat ≤ 127 := by
  simp only [decodeState, decodeInput]
  split
  · exact ⟨_, _, _, rfl, nofun, .inr rfl, by decide⟩
  next hv =>
  split
  · exact ⟨_, _, _, rfl, nofun, .inr rfl, by decide⟩
  split
  · exact ⟨_, _, _, rfl, nofun, .inr rfl, by decide⟩
  have hwf := h (Bool.not_eq_false _ ▸ hv)
  obtain ⟨-, -, hc, -⟩ := wfArena_iff.mp hwf
  obtain ⟨nd, hroot⟩ := exists_nodeAt_root hwf
  obtain ⟨q, j, hf, hend⟩ := exists_follow_of_decodeLoop hc hroot (window (s.setDecoded 0xFF#8 0#8)) 0
  have hq := consumedByte_le (Nat.zero_add q.length ▸ follow_length_le_of_wf hwf hf)
  simp only [State.setDecoded_node, State.setDecoded_nodeCount, State.setDecoded_root, hroot]
  obtain ⟨sym, hloop⟩ | hloop := hend
  · rw [hloop]
    exact ⟨_, _, _, rfl, nofun, .inl (symbolByte_le sym), hq⟩
  · rw [hloop]
    exact ⟨_, _, _, rfl, nofun, .inr rfl, hq⟩

/-! ## Every event keeps the invariant -/

theorem inv_atReset {bitcap epoch : Nat} (h : Config.LegalBitcap bitcap) : Inv (State.atReset bitcap epoch) where
  capacity := by rwa [State.atReset_bits, elements_length]
  noFault := rfl
  canonical := atReset_wf bitcap epoch
  tree hv := by cases hv
  noTree _ := ⟨rfl, rfl⟩
  codes := codesAgree_of_empty rfl
  complete hv := by cases hv
  decoded := .inr rfl
  consumed := Nat.zero_le 127

/-- Settles O54: at reset there is no tree, no code and no fault. -/
theorem resetMeetsTheInvariant : Obligations.ResetMeetsTheInvariant :=
  ⟨inv_atReset (by decide), fun _ _ => inv_atReset⟩

section
variable {s t : State} (h : Inv s)
include h

theorem Inv.platformReset : Inv s.platformReset :=
  (inv_atReset (epoch := s.resets + 1) h.capacity).of_eq rfl rfl rfl rfl rfl rfl rfl rfl

theorem Inv.buildState (min : Bool) : Inv (buildState min s) where
  capacity := h.capacity
  noFault := h.noFault
  canonical := setCodes_empty_wf s
  tree _ := ⟨buildState_wfArena min s, buildState_treeShape min s⟩
  noTree hv := by cases hv
  codes := codesAgree_of_empty rfl
  complete hv := by cases hv
  decoded := h.decoded
  consumed := h.consumed

theorem Inv.wfArena (hv : s.status.treeValid = true) : wfArena s.node s.nodeCount s.root = true := (h.tree hv).1

/-- ASSIGN completes: under the invariant the walk meets no missing child (41_assign.md rule R126). -/
theorem Inv.assignWalk (hv : s.status.treeValid = true) (ht : assignWalk s = .next t) : Inv t := by
  have hwf := h.wfArena hv
  obtain ⟨hmissing, -⟩ | ⟨l, hl, -, rfl⟩ := assignWalk_next ht
  · obtain ⟨l, hl⟩ := exists_walk_eq_leaves hwf
    cases hl.symm.trans hmissing
  · exact {
      capacity := h.capacity
      noFault := h.noFault
      canonical := assignDone_wf hwf hl
      tree := h.tree
      noTree := h.noTree
      codes := codesAgree_assignDone hwf hl
      complete := fun _ => ⟨hv, codesComplete_assignDone hwf hl⟩
      decoded := h.decoded
      consumed := h.consumed }

theorem Inv.setDecoded {x n : BitVec 8} (hx : x.toNat ≤ 127 ∨ x = 0xFF#8) (hn : n.toNat ≤ 127) :
    Inv (s.setDecoded x n) :=
  { h with decoded := hx, consumed := hn }

theorem Inv.decodeState : Inv (decodeState s) := by
  obtain ⟨x, n, c, heq, -, hx, hn⟩ := exists_decodeState_eq_finish h.wfArena
  rw [heq]
  exact (h.setDecoded hx hn).finish c

theorem Inv.execute {w : CmdWord} (ht : execute w s = .next t) : Inv t := by
  obtain ⟨c, rfl⟩ | ⟨min, -, rfl⟩ | ⟨hv, ht⟩ | rfl := execute_cases ht
  · exact h.finish c
  · exact h.buildState min
  · exact h.assignWalk hv ht
  · exact h.decodeState

theorem Inv.perform {a : HostAction} (ht : perform a s = .next t) : Inv t := by
  obtain ⟨i, v, -, -, rfl⟩ | ⟨i, b, -, -, rfl⟩ | ⟨v, -, rfl⟩ | ⟨v, -, rfl⟩ | ⟨x, rfl⟩ | rfl | ⟨v, -, ht⟩ :=
    perform_next ht
  · exact h.setWeight i v
  · exact h.setBit i b
  · exact h.setBitpos v
  · exact h.setBitlen v
  · exact h.give x
  · exact h
  · exact h.execute ht

theorem Inv.step (ht : step s = .next t) : Inv t := by
  obtain ⟨-, rfl⟩ | ⟨rest, -, rfl⟩ | ⟨a, rest, -, ht⟩ := step_next ht
  · exact h
  · exact (h.withInbox rest).platformReset
  · exact (h.withInbox rest).perform ht

end

/-- Settles O55, by the cases of a step: BUILD leaves a well-formed tree, ASSIGN its leaves' paths, DECODE results in their
ranges, reset the state of O54, and every other event touches nothing the invariant speaks of. -/
theorem stepKeepsTheInvariant : Obligations.StepKeepsTheInvariant := fun _ _ h ht => h.step ht

theorem Reachable.inv {s : State} (h : Reachable s) : Inv s := by
  induction h with
  | reset bitcap epoch hcap => exact inv_atReset hcap
  | issue s e _ ih => exact ih.withInbox _
  | step s t _ ht ih => exact ih.step ht

/-! ## The shape of a tree, node by node -/

theorem treeShape_iff {N : Vector Node 255} {n r : NodeIdx} :
    treeShape N n r = true ↔ leavesFirst (treeNodes N n) = true ∧ leavesAscending (treeNodes N n) = true ∧
      n.toNat + 1 = 2 * leafCount (treeNodes N n) ∧ r.toNat + 1 = n.toNat := by
  simp only [treeShape, Bool.and_eq_true, decide_eq_true_eq, and_assoc]

theorem leavesAscending_iff {l : List Node} :
    leavesAscending l = true ↔ (leafSymbols l).Pairwise (· < ·) ∧ (leafSymbols l).head? = some 0 := by
  simp only [leavesAscending, Bool.and_eq_true, decide_eq_true_eq]

theorem leavesFirst_iff {l : List Node} :
    leavesFirst l = true ↔ ∀ (i : Nat) (nd : Node), l[i]? = some nd → (nd.leaf = true ↔ i < leafCount l) := by
  rw [leavesFirst, all_zipIdx_iff]
  refine forall₃_congr fun i nd _ => ?_
  cases nd.leaf <;> simp

theorem filter_leaf_eq_take {l : List Node} (h : leavesFirst l = true) :
    l.filter Node.leaf = l.take (leafCount l) := by
  have hfirst := leavesFirst_iff.mp h
  conv_lhs => rw [← List.take_append_drop (leafCount l) l, List.filter_append]
  rw [List.filter_eq_self.mpr, List.filter_eq_nil_iff.mpr, List.append_nil]
  · intro nd hnd
    obtain ⟨k, hk⟩ := List.mem_iff_getElem?.mp hnd
    rw [List.getElem?_drop] at hk
    exact fun hleaf => absurd ((hfirst _ nd hk).mp hleaf) (by omega)
  · intro nd hnd
    obtain ⟨k, hk⟩ := List.mem_iff_getElem?.mp hnd
    rw [List.getElem?_take] at hk
    split at hk
    · exact (hfirst k nd hk).mpr ‹_›
    · cases hk

/-- The `i`-th leaf symbol is that of node `i`, the leaves standing first. -/
theorem leafSymbols_getElem? {l : List Node} (h : leavesFirst l = true) {i : Nat} (hi : i < leafCount l) :
    (leafSymbols l)[i]? = l[i]?.map fun nd => nd.sym.toNat := by
  rw [leafSymbols, filter_leaf_eq_take h, List.getElem?_map, List.getElem?_take_of_lt hi]

/-- Settles O58: a reachable state meets the invariant, whose shape is the rule's node by node; and by the cases of a command
none but BUILD writes the tree. -/
theorem reachableTreesAreWellFormed : Obligations.ReachableTreesAreWellFormed := by
  refine ⟨fun s hs hv => ?_, fun s t i hi ht => State.treeSide_eq_iff.mp (exec_treeSide hi ht)⟩
  obtain ⟨hwf, hshape⟩ := hs.inv.tree hv
  obtain ⟨hcount, -⟩ := wfArena_iff.mp hwf
  obtain ⟨hpos, hle, -, -⟩ := wfCount_iff.mp hcount
  obtain ⟨hfirst, hasc, hL, hroot⟩ := treeShape_iff.mp hshape
  obtain ⟨hpairwise, hhead⟩ := leavesAscending_iff.mp hasc
  have hsym (i : Nat) (x : Node) (hi : i < leafCount (treeNodes s.node s.nodeCount)) (hx : s.node[i]? = some x) :
      (leafSymbols (treeNodes s.node s.nodeCount))[i]? = some x.sym.toNat := by
    rw [leafSymbols_getElem? hfirst hi, treeNodes_getElem? s.node s.nodeCount (by omega), hx, Option.map_some]
  refine ⟨hwf, leafCount (treeNodes s.node s.nodeCount), by omega, by omega, hL, hroot, leavesFirst_iff.mp hfirst,
    ?_, ?_⟩
  · intro i j x y hij hj hx hy
    obtain ⟨hi', hxsym⟩ := List.getElem?_eq_some_iff.mp (hsym i x (hij.trans hj) hx)
    obtain ⟨hj', hysym⟩ := List.getElem?_eq_some_iff.mp (hsym j y hj hy)
    rw [← hxsym, ← hysym]
    exact List.pairwise_iff_getElem.mp hpairwise i j hi' hj' hij
  · intro x hx
    rw [List.head?_eq_getElem?, hsym 0 x (by omega) hx] at hhead
    exact BitVec.eq_of_toNat_eq (Option.some.inj hhead)

/-- Settles O59: the invariant's two clauses about the codes, read element by element. -/
theorem reachableCodesMatchTheTree : Obligations.ReachableCodesMatchTheTree := by
  intro s hs
  refine ⟨fun k c hk hv => ?_, fun hcodes j nd hj hleaf => ?_⟩
  · obtain ⟨j, nd, hf, hj, hleaf, hsym⟩ := leafAtPath_iff.mp (codesAgree_iff.mp hs.inv.codes k c hk hv)
    exact ⟨j, nd, hj, hleaf, hsym, hf⟩
  · obtain ⟨-, hcomplete⟩ := hs.inv.complete hcodes
    exact codesComplete_iff.mp hcomplete nd (nodeAt_mem hj) hleaf

end Sys2Proof.Machine
end

section
/-! SUPPORT. The issue order has no part in what an event does: every operation commutes with a change of it (20_memory.md rule
R67; log entry 1), up to what a step does with the first event issued. -/
namespace Sys2Proof.Machine

/-- An answer with another issue order in the next state, if there is one. -/
def resultWithInbox (l : List Input) : Result → Result
  | .next t => .next (t.withInbox l)
  | .fault r => .fault r
  | .refused r => .refused r

@[simp] theorem resultWithInbox_next (l : List Input) (t : State) :
    resultWithInbox l (.next t) = .next (t.withInbox l) := rfl

@[simp] theorem resultWithInbox_refused (l : List Input) (r : Refusal) :
    resultWithInbox l (.refused r) = .refused r := rfl

section
variable (l : List Input) (s : State)

/-! ## The commands -/

theorem unlessFaulted_withInbox (k : Result) :
    unlessFaulted (s.withInbox l) (resultWithInbox l k) = resultWithInbox l (unlessFaulted s k) := by
  cases h : s.status.fault
  · rw [unlessFaulted_clear h, unlessFaulted_clear (s := s.withInbox l) h]
  · rw [unlessFaulted_latched h, unlessFaulted_latched (s := s.withInbox l) h]; rfl

theorem assignWalk_withInbox : assignWalk (s.withInbox l) = resultWithInbox l (assignWalk s) := by
  simp only [assignWalk, State.withInbox_node, State.withInbox_nodeCount, State.withInbox_root]
  cases walk s.node s.nodeCount walkFuel s.root [] with
  | missing => rfl
  | endless => rfl
  | leaves leaves =>
    dsimp only
    rw [apply_ite (resultWithInbox l)]
    rfl

theorem decodeFinish_withInbox (e : DecodeEnd) :
    decodeFinish (s.withInbox l) e = (decodeFinish s e).withInbox l := by
  cases e <;> rfl

theorem decodeInput_withInbox (input : List Bool) :
    decodeInput (s.withInbox l) input = (decodeInput s input).withInbox l := by
  simp only [decodeInput, State.withInbox_node, State.withInbox_nodeCount, State.withInbox_root]
  split
  · rfl
  split
  · rfl
  · exact decodeFinish_withInbox l s _

theorem decodeState_withInbox : decodeState (s.withInbox l) = (decodeState s).withInbox l := by
  have hstart : (s.withInbox l).setDecoded 0xFF#8 0#8 = (s.setDecoded 0xFF#8 0#8).withInbox l := rfl
  have hlegal (t : State) : windowLegal (t.withInbox l) = windowLegal t := rfl
  have hwindow (t : State) : window (t.withInbox l) = window t := rfl
  simp only [decodeState, hstart, hlegal, hwindow, State.withInbox_status, decodeInput_withInbox]
  split
  · rfl
  split <;> rfl

theorem exec_withInbox (i : Instr) : exec i (s.withInbox l) = resultWithInbox l (exec i s) := by
  cases i with
  | build min => exact unlessFaulted_withInbox l s (.next (buildState min s))
  | assign =>
    refine Eq.trans ?_ (unlessFaulted_withInbox l s _)
    rw [exec, execAssign, assignWalk_withInbox, apply_ite (resultWithInbox l)]
    rfl
  | decode =>
    rw [exec, execDecode, decodeState_withInbox]
    exact unlessFaulted_withInbox l s (.next (decodeState s))

theorem execute_withInbox (w : CmdWord) : execute w (s.withInbox l) = resultWithInbox l (execute w s) := by
  rw [execute, execute]
  cases decode w with
  | ok i => exact exec_withInbox l s i
  | error e => exact unlessFaulted_withInbox l s (.next (s.finish .illegalCmd))

/-! ## Host accesses -/

theorem writeRegister_withInbox (r : RegName) (v : BitVec 16) :
    writeRegister (s.withInbox l) r v = resultWithInbox l (writeRegister s r v) := by
  cases r
  case cmd => exact execute_withInbox l s (commandWord v)
  all_goals rfl

theorem answerRead_withInbox (sp : Space) (i : Nat) (v : Option HostValue) :
    answerRead (s.withInbox l) sp i v = resultWithInbox l (answerRead s sp i v) := by
  cases v <;> rfl

theorem storeAt_withInbox (sp : Space) (i : Nat) (s' : State) :
    storeAt (s.withInbox l) sp i (s'.withInbox l) = resultWithInbox l (storeAt s sp i s') := by
  have hsize : spaceSize (s.withInbox l) sp = spaceSize s sp := by cases sp <;> rfl
  simp only [storeAt, hsize, apply_ite (resultWithInbox l), resultWithInbox_next, resultWithInbox_refused]

theorem perform_withInbox (a : HostAction) : perform a (s.withInbox l) = resultWithInbox l (perform a s) := by
  cases a with
  | wrw i v => exact storeAt_withInbox l s .weight i (s.setWeight i v)
  | wrn i v => exact storeAt_withInbox l s .node i s
  | wrc i v => exact storeAt_withInbox l s .code i s
  | wrb i b => exact storeAt_withInbox l s .bits i (s.setBit i b)
  | wrr i v =>
    simp only [perform]
    cases registerOf i with
    | none => rfl
    | some r => exact writeRegister_withInbox l s r v
  | rdw i | rdn i | rdc i | rdb i | rdr i => exact answerRead_withInbox l s _ i _

theorem performInput_withInbox (e : Input) :
    performInput e (s.withInbox l) = resultWithInbox l (performInput e s) := by
  cases e with
  | host a => exact perform_withInbox l s a
  | reset => rfl

end

/-- An event leaves the issue order as it was: it commutes with putting back the order that is there. -/
theorem performInput_inbox {e : Input} {s t : State} (h : performInput e s = .next t) : t.inbox = s.inbox := by
  have hput : resultWithInbox s.inbox (.next t) = .next t := h ▸ (performInput_withInbox s.inbox s e).symm
  rw [← Host.Outcome.next.inj hput, State.withInbox_inbox]

/-! ## A step -/

/-- A step performs the first event issued, on the state with the others left (20_memory.md rule R67). -/
theorem step_of_inbox_cons {s : State} {e : Input} {rest : List Input} (h : s.inbox = e :: rest) :
    step s = performInput e (s.withInbox rest) := by
  rw [step, takeInput, h]

/-- With nothing issued the block is quiescent (70_reset_and_hazards.md rule R210). -/
theorem step_of_inbox_nil {s : State} (h : s.inbox = []) : step s = .next s := by
  rw [step, takeInput, h]

/-- Settles O8: the two cases of the issue order. -/
theorem stepPerformsTheNextEvent : Obligations.StepPerformsTheNextEvent :=
  ⟨fun _ _ _ h => step_of_inbox_cons h, fun _ h => step_of_inbox_nil h⟩

/-- Settles O9: the event performed commutes with the longer issue order left behind it, and leaves that order as it is. -/
theorem laterIssuesDoNotInterfere : Obligations.LaterIssuesDoNotInterfere := by
  intro s t e hne hstep
  obtain ⟨first, rest, hinbox⟩ := List.exists_cons_of_ne_nil hne
  have hperform : performInput first (s.withInbox rest) = .next t := step_of_inbox_cons hinbox ▸ hstep
  have hrest : t.inbox = rest := performInput_inbox hperform
  calc step (s.withInbox (s.inbox ++ [e]))
    _ = performInput first ((s.withInbox rest).withInbox (rest ++ [e])) :=
        step_of_inbox_cons (congrArg (· ++ [e]) hinbox)
    _ = resultWithInbox (rest ++ [e]) (.next t) := by rw [performInput_withInbox, hperform]
    _ = .next (t.withInbox (t.inbox ++ [e])) := by rw [resultWithInbox_next, hrest]

end Sys2Proof.Machine
end

section
/-! SUPPORT. What the shared operations of the host accesses answer in range and out of it (20_memory.md rules R63, R65,
R66). -/
namespace Sys2Proof.Machine

theorem storeAt_of_lt {s : State} {sp : Space} {i : Nat} (h : i < spaceSize s sp) (s' : State) :
    storeAt s sp i s' = .next s' := if_pos h

theorem storeAt_of_le {s : State} {sp : Space} {i : Nat} (h : spaceSize s sp ≤ i) (s' : State) :
    storeAt s sp i s' = .refused (.badIndex sp i) := if_neg (Nat.not_lt.mpr h)

theorem answerRead_of_eq_none {v : Option HostValue} (h : v = none) (s : State) (sp : Space) (i : Nat) :
    answerRead s sp i v = .refused (.badIndex sp i) := by
  rw [h, answerRead]

/-- A value that is there is returned, and returned again when it is asked for again. -/
theorem answerRead_twice {v : Option HostValue} (h : v.isSome = true) (s : State) (sp : Space) (i : Nat) :
    ∃ x, answerRead s sp i v = .next (s.give x) ∧ answerRead (s.give x) sp i v = .next ((s.give x).give x) := by
  obtain ⟨x, rfl⟩ := Option.isSome_iff_exists.mp h
  exact ⟨x, rfl, rfl⟩

theorem registerOf_eq_none {i : Nat} (h : 8 ≤ i) : registerOf i = none := by
  rw [← Option.not_isSome_iff_eq_none, registerOf_isSome_iff]
  omega

/-- The registers 1 to 5 ignore a write (20_memory.md rule R66). -/
theorem perform_wrr_readOnly (s : State) {r : Nat} (v : BitVec 16) (h1 : 1 ≤ r) (h5 : r ≤ 5) :
    perform (.wrr r v) s = .next s := by
  interval_cases r <;> rfl

theorem perform_wrr_of_le {s : State} {i : Nat} (v : BitVec 16) (h : 8 ≤ i) :
    perform (.wrr i v) s = .refused (.badIndex .reg i) := by
  simp only [perform, registerOf_eq_none h]

/-- Settles O18: the read-only registers by their five numbers; a write to `NODE` or `CODE` stores the state it found. -/
theorem readOnlyTargetsIgnoreWrites : Obligations.ReadOnlyTargetsIgnoreWrites :=
  ⟨fun s _ v h1 h5 => perform_wrr_readOnly s v h1 h5, fun s _ _ h => storeAt_of_lt (sp := .node) h s,
    fun s _ _ h => storeAt_of_lt (sp := .code) h s⟩

/-- Settles O19: a store compares the index with its space's size, a read finds no element there, and there is no register
of that number. -/
theorem outOfRangeAccessHasNoStep : Obligations.OutOfRangeAccessHasNoStep := by
  intro s
  refine ⟨fun i v h => ?wrw, fun i h => ?rdw, fun i v h => ?wrn, fun i h => ?rdn, fun i v h => ?wrc, fun i h => ?rdc,
    fun i b h => ?wrb, fun i h => ?rdb, fun i v h => ?wrr, fun i h => ?rdr⟩
  case wrw => exact storeAt_of_le (sp := .weight) h _
  case wrn => exact storeAt_of_le (sp := .node) h _
  case wrc => exact storeAt_of_le (sp := .code) h _
  case wrb => exact storeAt_of_le (sp := .bits) h _
  case wrr => exact perform_wrr_of_le v h
  case rdr => exact answerRead_of_eq_none (by rw [registerOf_eq_none h, Option.map_none]) s _ i
  case rdw | rdn | rdc | rdb => exact answerRead_of_eq_none (by simpa using h) s _ i

/-- Settles O20: a read in range has a value, which depends on nothing that the record of returned values is part of. -/
theorem readsHaveNoSideEffect : Obligations.ReadsHaveNoSideEffect := by
  intro s a hwf hread
  obtain ⟨i, rfl⟩ | ⟨i, rfl⟩ | ⟨i, rfl⟩ | ⟨i, rfl⟩ | ⟨i, rfl⟩ := hread <;> have hi := of_decide_eq_true hwf
  · exact answerRead_twice (v := s.weight[i]?.map .weight) (by simpa using hi) s .weight i
  · exact answerRead_twice (v := s.node[i]?.map fun nd => .node (nodeBits nd)) (by simpa using hi) s .node i
  · exact answerRead_twice (v := s.code[i]?.map fun c => .code (codeBits c)) (by simpa using hi) s .code i
  · exact answerRead_twice (v := s.bits[i]?.map .bit) (by simpa using hi) s .bits i
  · exact answerRead_twice (v := (registerOf i).map (readRegister s))
      (by rw [Option.isSome_map, registerOf_isSome_iff]; exact hi) s .reg i

end Sys2Proof.Machine
end

section
/-! SUPPORT. The command word by its fields: which words are legal, what a legal word spells, and what writing a word to `CMD`
does (30_encoding.md rules R80 to R85). -/
namespace Sys2Proof

/-! ## The decoder, by the fields of the word -/

/-- The three fields make up the word (30_encoding.md rule R80). -/
theorem fields_append (w : CmdWord) : reservedField w ++ BitVec.ofBool (minField w) ++ opField w = w := by
  refine BitVec.eq_of_getLsbD_eq fun i hi => ?_
  simp only [reservedField, minField, opField, BitVec.getLsbD_append, BitVec.getLsbD_ofBool, BitVec.getLsbD_extractLsb]
  interval_cases i <;> simp

/-- The legality of a word by its fields, as Execute(w) tests it (30_encoding.md rule R85). -/
theorem legalWord_iff (w : CmdWord) :
    legalWord w = true ↔
      ¬(reservedField w ≠ 0#5 ∨ opField w = 0b00#2 ∨ (minField w = true ∧ opField w ≠ 0b01#2)) := by
  simp [legalWord, reservedField, opField, minField, and_assoc, imp_iff_not_or]

/-- The command that `OP` selects, with `MIN` for BUILD (30_encoding.md rules R81, R82). -/
def selectedCommand (w : CmdWord) : Instr :=
  if opField w = 0b01#2 then .build (minField w) else if opField w = 0b10#2 then .assign else .decode

/-- A legal word spells the command its `OP` selects. -/
theorem decode_of_legalWord {w : CmdWord} (h : legalWord w = true) : decode w = .ok (selectedCommand w) := by
  rw [legalWord_iff] at h
  push Not at h
  obtain ⟨hreserved, hop, hmin⟩ := h
  rw [decode, selectedCommand, if_neg (not_not.mpr hreserved), if_neg hop]
  by_cases hbuild : opField w = 0b01#2
  · rw [if_pos hbuild, if_pos hbuild]
  · rw [if_neg hbuild, if_neg (mt hmin hbuild), if_neg hbuild, apply_ite Except.ok]

/-- A word that is not legal is refused by name (30_encoding.md rule R84). -/
theorem decode_of_not_legalWord {w : CmdWord} (h : ¬legalWord w = true) : ∃ e, decode w = .error e := by
  rw [legalWord_iff, not_not] at h
  by_cases hreserved : reservedField w = 0#5
  · by_cases hop : opField w = 0b00#2
    · exact ⟨.reservedOp, by simp [decode, hreserved, hop]⟩
    · obtain ⟨hmin, hbuild⟩ := (h.resolve_left (not_not.mpr hreserved)).resolve_left hop
      exact ⟨.minWithoutBuild, by simp [decode, hreserved, hop, hbuild, hmin]⟩
  · exact ⟨.reservedBits, decode_reserved_bits hreserved⟩

/-! ## The decoder and the encoder -/

@[simp] theorem decode_encode (i : Instr) : decode (encode i) = .ok i := by
  cases i with
  | build min => cases min <;> rfl
  | assign => rfl
  | decode => rfl

/-- A legal word has no field but those of the command it spells. -/
theorem encode_selectedCommand {w : CmdWord} (h : legalWord w = true) : encode (selectedCommand w) = w := by
  rw [legalWord_iff] at h
  push Not at h
  obtain ⟨hreserved, hop, hmin⟩ := h
  refine Eq.trans ?_ (fields_append w)
  rw [selectedCommand, hreserved]
  split_ifs with hbuild hassign
  · rw [hbuild, encode]
  · rw [hassign, Bool.eq_false_of_not_eq_true (mt hmin hbuild)]; rfl
  · have hdecode : opField w = 0b11#2 := by bv_omega
    rw [hdecode, Bool.eq_false_of_not_eq_true (mt hmin hbuild)]; rfl

theorem encode_of_decode {w : CmdWord} {i : Instr} (h : decode w = .ok i) : encode i = w := by
  by_cases hlegal : legalWord w = true
  · obtain rfl : selectedCommand w = i := Except.ok.inj ((decode_of_legalWord hlegal).symm.trans h)
    exact encode_selectedCommand hlegal
  · obtain ⟨e, he⟩ := decode_of_not_legalWord hlegal
    cases he.symm.trans h

theorem decode_eq_ok_iff {w : CmdWord} {i : Instr} : decode w = .ok i ↔ w = encode i :=
  ⟨fun h => (encode_of_decode h).symm, fun h => h ▸ decode_encode i⟩

/-- The four rows of the table of 30_encoding.md rule R84. -/
theorem eq_encode_iff (w : CmdWord) (i : Instr) :
    w = encode i ↔
      (w = 0x01#8 ∧ i = .build false) ∨ (w = 0x05#8 ∧ i = .build true) ∨ (w = 0x02#8 ∧ i = .assign) ∨
        (w = 0x03#8 ∧ i = .decode) := by
  cases i with
  | build min => cases min <;> simp [encode]
  | assign => simp [encode]
  | decode => simp [encode]

/-- The row of BUILD in match and mask form leaves `MIN` open (30_encoding.md rule R84). -/
theorem build_mask_iff (w : CmdWord) : w &&& 0xFB#8 = 0x01#8 ↔ w = 0x01#8 ∨ w = 0x05#8 := by
  revert w
  decide

/-- The three rows in match and mask form (30_encoding.md rule R84). -/
theorem exists_decode_iff_mask (w : CmdWord) :
    (∃ i, decode w = .ok i) ↔ w &&& 0xFB#8 = 0x01#8 ∨ w &&& 0xFF#8 = 0x02#8 ∨ w &&& 0xFF#8 = 0x03#8 := by
  have hfull : w &&& 0xFF#8 = w := BitVec.and_allOnes
  simp only [decode_eq_ok_iff, eq_encode_iff, exists_or, exists_and_left, exists_eq, and_true, build_mask_iff, hfull, or_assoc]

/-- Settles O2: decoding inverts encoding, and a word that decodes has no fields but its command's. -/
theorem decodeEncodeRoundTrip : Obligations.DecodeEncodeRoundTrip :=
  ⟨decode_encode, fun _ _ => encode_of_decode⟩

/-- Settles O3, by evaluation. -/
theorem sampleCommandWords : Obligations.SampleCommandWords :=
  ⟨decode_build_all, decode_build_min, decode_assign, decode_decode, rfl, rfl, rfl, rfl, rfl, rfl⟩

end Sys2Proof

namespace Sys2Proof.Machine

/-! ## Executing a word -/

theorem execute_of_decode {w : CmdWord} {i : Instr} (h : decode w = .ok i) (s : State) : execute w s = exec i s := by
  rw [execute, h]

theorem execute_of_error {w : CmdWord} {e : IllegalWord} (h : decode w = .error e) (s : State) :
    execute w s = illegalCommand s := by
  rw [execute, h]

/-- The latch refuses every command (60_exceptions.md rule R177). -/
theorem exec_latched {s : State} (h : s.status.fault = true) (i : Instr) : exec i s = .next (s.finish .faulted) := by
  cases i <;> exact unlessFaulted_latched h _

/-- The latch refuses every word, legal or not (60_exceptions.md rules R177, R180). -/
theorem execute_latched {s : State} (h : s.status.fault = true) (w : CmdWord) :
    execute w s = .next (s.finish .faulted) := by
  cases hw : decode w with
  | ok i => rw [execute_of_decode hw, exec_latched h]
  | error e => rw [execute_of_error hw, illegalCommand, unlessFaulted_latched h]

/-- With the latch clear an illegal word writes only the code (60_exceptions.md rule R174). -/
theorem execute_error_clear {w : CmdWord} {e : IllegalWord} {s : State} (hw : decode w = .error e)
    (h : s.status.fault = false) : execute w s = .next (s.finish .illegalCmd) := by
  rw [execute_of_error hw, illegalCommand, unlessFaulted_clear h]

/-- Settles O1: the words that decode are the four that `encode` gives; any other word is refused by name, and then only the
code is written. -/
theorem legalWordsAreExactlyFour : Obligations.LegalWordsAreExactlyFour := by
  refine ⟨fun w i => decode_eq_ok_iff.trans (eq_encode_iff w i), exists_decode_iff_mask, fun w s hw hs => ?_⟩
  cases h : decode w with
  | ok i => exact absurd h (hw i)
  | error e => exact execute_error_clear h hs

/-- Settles O5: the latch first, then the word's legality, then the command its `OP` selects. -/
theorem executeChecksInOrder : Obligations.ExecuteChecksInOrder := by
  intro w s
  split_ifs with hfault hillegal hbuild hassign
  · exact execute_latched hfault w
  · obtain ⟨e, he⟩ := decode_of_not_legalWord (mt (legalWord_iff w).mp (not_not.mpr hillegal))
    exact execute_error_clear he (Bool.eq_false_of_not_eq_true hfault)
  all_goals rw [execute_of_decode (decode_of_legalWord ((legalWord_iff w).mpr hillegal)), selectedCommand]
  · rw [opField, minField, if_pos hbuild]
  · rw [opField, if_neg hbuild, if_pos hassign]
  · rw [opField, if_neg hbuild, if_neg hassign]

/-! ## A step that executes a word -/

/-- A command word written to `CMD` in 16 bits is the word (43_host_access.md rule R156). -/
theorem commandWord_ofNat (w : CmdWord) : commandWord (BitVec.ofNat 16 (w.toNat % 2 ^ 8)) = w := by
  apply BitVec.eq_of_toNat_eq
  simpa [commandWord] using w.isLt

/-- Settles O4: the step executes the word written, which decodes to the command; the word of a command fits the 16 bits of a
register write. -/
theorem stepRunsDecodedCommand : Obligations.StepRunsDecodedCommand := by
  refine ⟨fun s rest v i hinbox hdecode _ => ?_, fun s i => ?_⟩
  · exact (step_command hinbox).trans (execute_of_decode hdecode _)
  · calc step (s.withFetchWord 8 (encode i).toNat)
      _ = execute (commandWord (BitVec.ofNat 16 ((encode i).toNat % 2 ^ 8))) s := step_command rfl
      _ = exec i s := execute_of_decode (by rw [commandWord_ofNat, decode_encode]) s

end Sys2Proof.Machine
end

section
/-! SUPPORT. The Tree Builder's order and its merges: the three-key order is the order by weight and index (40_build.md rule
R110), every merge takes the two lowest nodes of the queue (rules R103, R104), and the sums are exact (rule R107). -/
namespace Sys2Proof.Machine

/-! ## The order of the queue -/

section
variable {w : Vector Weight 128} {min : Bool} {q : List Queued} {made : List Node}

/-- A leaf stands at its symbol's place among the included ones (40_build.md rules R101, R108). -/
theorem MergeInv.includedSymbols_getElem? (h : MergeInv (leafNodes w min) q made) {i : Nat} {nd : Node}
    (hi : made[i]? = some nd) (hl : nd.leaf = true) : (includedSymbols w min)[i]? = some nd.sym.toNat := by
  obtain ⟨internals, rfl, hint⟩ := h.leavesFirst
  by_cases hlt : i < (leafNodes w min).length
  · rw [List.getElem?_append_left hlt] at hi
    rw [← leafNodes_symbols, List.getElem?_map, hi, Option.map_some]
  · rw [List.getElem?_append_right (Nat.le_of_not_lt hlt)] at hi
    simp [hint nd (List.mem_of_getElem? hi)] at hl

/-- Between two leaves the order of the symbols is the order of the indices. -/
theorem MergeInv.sym_lt_iff (h : MergeInv (leafNodes w min) q made) {a b : Nat} {x y : Node} (ha : made[a]? = some x)
    (hb : made[b]? = some y) (hx : x.leaf = true) (hy : y.leaf = true) : x.sym < y.sym ↔ a < b := by
  obtain ⟨ha, hxsym⟩ := List.getElem?_eq_some_iff.mp (h.includedSymbols_getElem? ha hx)
  obtain ⟨hb, hysym⟩ := List.getElem?_eq_some_iff.mp (h.includedSymbols_getElem? hb hy)
  rw [BitVec.lt_def, ← hxsym, ← hysym]
  exact (includedSymbols_pairwise w min).sortedLT.strictMono_get.lt_iff_lt (a := ⟨a, ha⟩) (b := ⟨b, hb⟩)

/-- The three keys decide as weight and index do, at any moment of the merge loop (40_build.md rule R110). -/
theorem MergeInv.nodeLess_iff (h : MergeInv (leafNodes w min) q made) {a b : Nat} {x y : Node} (ha : made[a]? = some x)
    (hb : made[b]? = some y) :
    nodeLess (x, a) (y, b) = true ↔ x.weight.toNat < y.weight.toNat ∨ (x.weight = y.weight ∧ a < b) := by
  by_cases hw : x.weight = y.weight
  · by_cases hleaf : x.leaf = true ∧ y.leaf = true
    · simp [nodeLess, hw, hleaf, h.sym_lt_iff ha hb hleaf.1 hleaf.2]
    · simp [nodeLess, hw, hleaf]
  · simp [nodeLess, hw, BitVec.lt_def]

/-- `nodeLess` is the order `lowerNode` of two nodes that stand at their indices (40_build.md rule R102). -/
theorem lowerNode_of_nodeLess {l : List Node} {a b : Queued} (ha : l[a.2]? = some a.1) (hb : l[b.2]? = some b.1)
    (h : nodeLess a b = true) : lowerNode l a.2 b.2 := by
  refine ⟨a.1, b.1, ha, hb, ?_⟩
  unfold nodeLess at h
  split_ifs at h with hw hleaf
  · exact .inl (of_decide_eq_true h)
  · obtain ⟨hx, hy⟩ := Bool.and_eq_true_iff.mp hleaf
    exact .inr ⟨not_not.mp hw, .inl ⟨hx, hy, of_decide_eq_true h⟩⟩
  · exact .inr ⟨not_not.mp hw, .inr ⟨mt Bool.and_eq_true_iff.mpr hleaf, of_decide_eq_true h⟩⟩

/-- What `extractMin` takes from any part of the queue is before the rest of that part (40_build.md rule R103). -/
theorem MergeInv.lowerNode_of_extractMin (h : MergeInv (leafNodes w min) q made) {p rest : List Queued} {m : Queued}
    (hp : p.Subperm q) (hm : extractMin p = some (m, rest)) : ∀ x ∈ rest, lowerNode made m.2 x.2 := by
  have hat : ∀ x ∈ p, made[x.2]? = some x.1 := fun x hx => h.queued x (hp.subset hx)
  have hless : ∀ a ∈ p, ∀ b ∈ p, nodeLess a b = true ↔
      a.1.weight.toNat < b.1.weight.toNat ∨ (a.1.weight.toNat = b.1.weight.toNat ∧ a.2 < b.2) := fun a ha b hb => by
    rw [BitVec.toNat_inj]
    exact h.nodeLess_iff (hat a ha) (hat b hb)
  have hne : p.Pairwise fun a b => a.2 ≠ b.2 := by
    have hnodup : (q.map Prod.snd).Nodup := (h.indices.nodup_iff.mpr List.nodup_range).of_append_left
    obtain ⟨p', hperm, hsub⟩ := hp
    exact List.pairwise_map.mp ((hperm.map Prod.snd).nodup_iff.mp ((hsub.map Prod.snd).nodup hnodup))
  have hleast := extractMin_least (fun a ha b hb c hc hab hbc => by
      rw [hless a ha b hb] at hab
      rw [hless b hb c hc] at hbc
      rw [hless a ha c hc]
      omega)
    (hne.imp_of_mem fun {a b} ha hb hne => by
      rw [hless a ha b hb, hless b hb a ha]
      omega) hm
  have hmem := fun x (hx : x ∈ m :: rest) => (extractMin_perm hm).mem_iff.mp hx
  exact fun x hx => lowerNode_of_nodeLess (hat m (hmem m (.head _))) (hat x (hmem x (.tail _ hx))) (hleast x hx)

end

/-! ## The queue, read off the nodes created -/

/-- A node is in the queue at the end of a list of nodes when it is in the list and no child field holds it. -/
theorem inQueueAt_length_iff {l : List Node} {j : Nat} :
    inQueueAt l l.length j ↔ j < l.length ∧ j ∉ childIndices l := by
  refine and_congr_right fun _ => ?_
  rw [mem_childIndices]
  constructor
  · rintro h ⟨i, nd, b, hi, hl, hb⟩
    obtain ⟨hleft, hright⟩ := h i (List.getElem?_eq_some_iff.mp hi).1 nd hi hl
    cases b
    · exact hleft hb
    · exact hright hb
  · exact fun h k _ nd hk hl => ⟨fun hj => h ⟨k, nd, false, hk, hl, hj⟩, fun hj => h ⟨k, nd, true, hk, hl, hj⟩⟩

/-- The queue of the merge loop is the queue the nodes created so far tell of (40_build.md rule R100). -/
theorem MergeInv.inQueueAt_iff {leaves q made} (h : MergeInv leaves q made) {j : Nat} :
    inQueueAt made made.length j ↔ j ∈ q.map Prod.snd := by
  have hdisj := (h.indices.nodup_iff.mpr List.nodup_range).disjoint
  rw [inQueueAt_length_iff, ← List.mem_range, ← h.indices.mem_iff, List.mem_append]
  exact ⟨fun ⟨hj, hnot⟩ => hj.resolve_right hnot, fun hj => ⟨.inl hj, fun hc => hdisj hj hc⟩⟩

/-! Nodes created later do not change what held of the earlier ones. -/

section
variable {l : List Node} (l' : List Node)

theorem inQueueAt_append {i j : Nat} (hi : i ≤ l.length) : inQueueAt (l ++ l') i j ↔ inQueueAt l i j :=
  and_congr_right fun _ => forall₂_congr fun k hk => by rw [List.getElem?_append_left (Nat.lt_of_lt_of_le hk hi)]

theorem lowerNode_append {a b : Nat} (h : lowerNode l a b) : lowerNode (l ++ l') a b := by
  obtain ⟨x, y, hx, hy, h⟩ := h
  have hxlen := (List.getElem?_eq_some_iff.mp hx).1
  have hylen := (List.getElem?_eq_some_iff.mp hy).1
  exact ⟨x, y, by rw [List.getElem?_append_left hxlen, hx], by rw [List.getElem?_append_left hylen, hy], h⟩

end

/-! ## The merges -/

/-- Node `nd`, created at index `i`, has the two lowest nodes of the queue of that moment as its children, the lowest on the
left (40_build.md rules R103, R104). -/
structure MergedLowest (l : List Node) (i : Nat) (nd : Node) : Prop where
  leftQueued : inQueueAt l i nd.left.toNat
  rightQueued : inQueueAt l i nd.right.toNat
  leftLowest : ∀ j, inQueueAt l i j → j ≠ nd.left.toNat → lowerNode l nd.left.toNat j
  rightLowest : ∀ j, inQueueAt l i j → j ≠ nd.left.toNat → j ≠ nd.right.toNat → lowerNode l nd.right.toNat j
  sym : nd.sym = 0#7

theorem MergedLowest.append {l : List Node} {i : Nat} {nd : Node} (h : MergedLowest l i nd) (hi : i ≤ l.length)
    (l' : List Node) : MergedLowest (l ++ l') i nd where
  leftQueued := (inQueueAt_append l' hi).mpr h.leftQueued
  rightQueued := (inQueueAt_append l' hi).mpr h.rightQueued
  leftLowest j hj hne := lowerNode_append l' (h.leftLowest j ((inQueueAt_append l' hi).mp hj) hne)
  rightLowest j hj hne hne' := lowerNode_append l' (h.rightLowest j ((inQueueAt_append l' hi).mp hj) hne hne')
  sym := h.sym

/-- The index of a node in the queue fits a child field (40_build.md rule R108). -/
theorem MergeInv.lt_of_mem_queue {leaves q made} (h : MergeInv leaves q made) (hlen : leaves.length ≤ 128) {x : Queued}
    (hx : x ∈ q) : x.2 < 256 := by
  have hlt := (List.getElem?_eq_some_iff.mp (h.queued x hx)).1
  have hcount := h.count
  omega

/-- The node a merge creates was made from the two lowest. -/
theorem MergeInv.mergedLowest {w : Vector Weight 128} {min : Bool} {q q1 q2 : List Queued} {made : List Node}
    {a b : Queued} (h : MergeInv (leafNodes w min) q made) (ha : extractMin q = some (a, q1))
    (hb : extractMin q1 = some (b, q2)) : MergedLowest made made.length (mergeNode a b) := by
  have hq : q.Perm (a :: q1) := (extractMin_perm ha).symm
  have hq1 : q1.Perm (b :: q2) := (extractMin_perm hb).symm
  have hamem : a ∈ q := hq.mem_iff.mpr (.head _)
  have hbmem : b ∈ q := hq.mem_iff.mpr (.tail _ (hq1.mem_iff.mpr (.head _)))
  have hle := (leafNodes_length w min).2
  have hleft : (mergeNode a b).left.toNat = a.2 := mergeNode_left (h.lt_of_mem_queue hle hamem)
  have hright : (mergeNode a b).right.toNat = b.2 := mergeNode_right (h.lt_of_mem_queue hle hbmem)
  have rest_of_ne : ∀ j, inQueueAt made made.length j → j ≠ a.2 → ∃ x ∈ q1, x.2 = j := fun j hj hne => by
    obtain ⟨x, hx, rfl⟩ := List.mem_map.mp (h.inQueueAt_iff.mp hj)
    exact ⟨x, (List.mem_cons.mp (hq.mem_iff.mp hx)).resolve_left fun heq => hne (heq ▸ rfl), rfl⟩
  exact {
    leftQueued := h.inQueueAt_iff.mpr (hleft ▸ List.mem_map_of_mem hamem)
    rightQueued := h.inQueueAt_iff.mpr (hright ▸ List.mem_map_of_mem hbmem)
    leftLowest := fun j hj hne => by
      rw [hleft] at hne ⊢
      obtain ⟨x, hx, rfl⟩ := rest_of_ne j hj hne
      exact h.lowerNode_of_extractMin (List.Subperm.refl q) ha x hx
    rightLowest := fun j hj hne hne' => by
      rw [hleft] at hne
      rw [hright] at hne' ⊢
      obtain ⟨x, hx, rfl⟩ := rest_of_ne j hj hne
      have hx2 := (List.mem_cons.mp (hq1.mem_iff.mp hx)).resolve_left fun heq => hne' (heq ▸ rfl)
      exact h.lowerNode_of_extractMin ((List.sublist_cons_self a q1).subperm.trans hq.symm.subperm) hb x hx2
    sym := rfl }

/-- The invariant of the merge loop with what the merges so far have done. -/
structure MergeHistory (w : Vector Weight 128) (min : Bool) (q : List Queued) (made : List Node) : Prop
    extends MergeInv (leafNodes w min) q made where
  /-- A merge keeps the sum of the weights in the queue (40_build.md rule R107). -/
  sum : (q.map fun x => x.1.weight.toNat).sum = ((leafNodes w min).map fun nd => nd.weight.toNat).sum
  merged : ∀ (i : Nat) (nd : Node), made[i]? = some nd → nd.leaf = false → MergedLowest made i nd

/-- A round of the merge loop keeps it. -/
theorem MergeHistory.merge {w : Vector Weight 128} {min : Bool} {q q1 q2 : List Queued} {made : List Node} {a b : Queued}
    (h : MergeHistory w min q made) (ha : extractMin q = some (a, q1)) (hb : extractMin q1 = some (b, q2)) :
    MergeHistory w min ((mergeNode a b, made.length) :: q2) (made ++ [mergeNode a b]) := by
  have hperm : (a :: b :: q2).Perm q := ((extractMin_perm hb).cons a).trans (extractMin_perm ha)
  have hsum := (hperm.map fun x => x.1.weight.toNat).sum_eq
  have htotal := h.total
  rw [← hsum, List.map_cons, List.map_cons, List.sum_cons, List.sum_cons] at htotal
  have hweight : (mergeNode a b).weight.toNat = a.1.weight.toNat + b.1.weight.toNat := mergeNode_weight (by omega)
  exact {
    toMergeInv := (h.toMergeInv.perm hperm.symm).merge (leafNodes_length w min).2
    sum := by
      rw [← h.sum, ← hsum, List.map_cons, List.map_cons, List.map_cons, List.sum_cons, List.sum_cons, List.sum_cons,
        hweight, Nat.add_assoc]
    merged := fun i nd hi hl => by
      by_cases hlt : i < made.length
      · rw [List.getElem?_append_left hlt] at hi
        exact (h.merged i nd hi hl).append hlt.le _
      · have hlen := (List.getElem?_eq_some_iff.mp hi).1
        obtain rfl : i = made.length := by simp at hlen; omega
        obtain rfl : mergeNode a b = nd := by simpa using hi
        exact (h.mergedLowest ha hb).append le_rfl _ }

/-- What holds at the start of the merge loop and is kept by every round holds at its end, of a queue with the root alone:
the bound on the merges is not met (log entry 16). -/
theorem mergeLoop_induction {P : List Queued → List Node → Prop}
    (merge : ∀ {q q1 q2 made a b}, P q made → extractMin q = some (a, q1) → extractMin q1 = some (b, q2) →
      P ((mergeNode a b, made.length) :: q2) (made ++ [mergeNode a b]))
    {fuel : Nat} {q : List Queued} {made : List Node} (h : P q made) (hq : q ≠ []) (hfuel : q.length ≤ fuel + 1) :
    ∃ root, P [root] (mergeLoop fuel q made).1 ∧ (mergeLoop fuel q made).2 = root.2 := by
  induction fuel generalizing q made with
  | zero =>
    obtain ⟨a, rfl⟩ := List.length_eq_one_iff.mp (Nat.le_antisymm hfuel (List.length_pos_iff.mpr hq))
    rw [mergeLoop_last (a := a) rfl]
    exact ⟨a, h, rfl⟩
  | succ fuel ih =>
    cases ha : extractMin q with
    | none => exact absurd (extractMin_eq_none.mp ha) hq
    | some x =>
      obtain ⟨a, q1⟩ := x
      have hlen := extractMin_length ha
      cases hb : extractMin q1 with
      | none =>
        obtain rfl := extractMin_eq_none.mp hb
        obtain rfl : [a] = q := List.singleton_perm.mp (extractMin_perm ha)
        rw [mergeLoop_last ha]
        exact ⟨a, h, rfl⟩
      | some y =>
        obtain ⟨b, q2⟩ := y
        have hlen1 := extractMin_length hb
        rw [mergeLoop_merge ha hb]
        exact ih (merge h ha hb) (List.cons_ne_nil _ _) (by rw [List.length_cons]; omega)

theorem mergeHistory_leafNodes (w : Vector Weight 128) (min : Bool) :
    MergeHistory w min (leafNodes w min).zipIdx (leafNodes w min) where
  toMergeInv := mergeInv_leafNodes w min
  sum := by
    have hmap := congrArg (List.map fun nd : Node => nd.weight.toNat) (List.zipIdx_map_fst 0 (leafNodes w min))
    rw [List.map_map] at hmap
    exact congrArg List.sum hmap
  merged i nd hi hl := by simp [leaf_eq_of_mem_leafNodes (List.mem_of_getElem? hi)] at hl

theorem mergeHistory_buildTree (w : Vector Weight 128) (min : Bool) :
    ∃ root, MergeHistory w min [root] (buildTree w min).1 ∧ (buildTree w min).2 = root.2 := by
  obtain ⟨hpos, -⟩ := leafNodes_length w min
  refine mergeLoop_induction MergeHistory.merge (mergeHistory_leafNodes w min) (fun h => ?_) (by simp)
  simp [List.zipIdx_eq_nil_iff.mp h] at hpos

/-! ## The sums -/

/-- Where the children stand before their parents and the weights add up, a node's weight is the sum of the leaves beneath
it: the depth below node `i` is at most `i`. -/
theorem leafWeightSum_eq_weight {l : List Node} (hc : wfChildren l = true) (hw : wfWeights l = true) {fuel i : Nat}
    {nd : Node} (hi : l[i]? = some nd) (hfuel : i < fuel) : leafWeightSum l fuel i = nd.weight.toNat := by
  induction fuel generalizing i nd with
  | zero => omega
  | succ fuel ih =>
    cases hl : nd.leaf with
    | true => simp [leafWeightSum, hi, hl]
    | false =>
      obtain ⟨hleft, hright, -⟩ := wfChildren_iff.mp hc i nd hi hl
      have hsub : ∀ j < i, leafWeightSum l fuel j = weightAt l j := fun j hj => by
        have hlen := (List.getElem?_eq_some_iff.mp hi).1
        have hj' := List.getElem?_eq_getElem (hj.trans hlen)
        rw [ih hj' (by omega), weightAt_of_getElem? hj']
      rw [wfWeights_iff.mp hw nd (List.mem_of_getElem? hi) hl, ← hsub _ hleft, ← hsub _ hright]
      simp [leafWeightSum, hi, hl]

/-- The leaves' weights are those of the included symbols, as the host wrote them (40_build.md rule R101). -/
theorem leafNodes_weights (w : Vector Weight 128) (min : Bool) :
    (leafNodes w min).map (fun nd => nd.weight.toNat) =
      (includedSymbols w min).map fun k => (w[k]?.getD 0#32).toNat := by
  rw [leafNodes_eq, List.map_map]
  refine List.map_congr_left fun k _ => ?_
  exact BitVec.toNat_setWidth_of_le (by decide)

end Sys2Proof.Machine
end

section
/-! SUPPORT. The statements about BUILD: each is read off the state it leaves, `buildState` (40_build.md rules R100 to R111). -/
namespace Sys2Proof.Machine

/-! ## The state after, node by node -/

theorem eq_buildState_of_exec {s t : State} {min : Bool} (hf : s.status.fault = false)
    (h : exec (.build min) s = .next t) : t = buildState min s :=
  Host.Outcome.next.inj (h.symm.trans (exec_build_clear hf min))

theorem includedSymbols_length (w : Vector Weight 128) (min : Bool) :
    (includedSymbols w min).length = (leafNodes w min).length := by
  rw [leafNodes_eq, List.length_map]

/-- With `MIN` 0 every symbol is included (40_build.md rule R101). -/
theorem includedSymbols_false (w : Vector Weight 128) : includedSymbols w false = List.range 128 :=
  List.filter_eq_self.mpr fun _ _ => Bool.or_true _

/-- A node of the new tree stands in the arena (10_state.md rule R25). -/
theorem buildState_node_low (min : Bool) (s : State) {i : Nat} (hi : i < (buildTree s.weight min).1.length) :
    (buildState min s).node[i]? = (buildTree s.weight min).1[i]? :=
  overwriteArena_low s.node _ (buildTree_length_le min s) hi

/-- The first nodes of the tree are the leaves (40_build.md rule R108). -/
theorem buildTree_getElem?_leaf (w : Vector Weight 128) (min : Bool) {i : Nat} (hi : i < (leafNodes w min).length) :
    (buildTree w min).1[i]? = (leafNodes w min)[i]? := by
  obtain ⟨root, hinv, -⟩ := mergeInv_buildTree w min
  obtain ⟨internals, hmade, -⟩ := hinv.leavesFirst
  rw [hmade, List.getElem?_append_left hi]

/-! ## The statements -/

/-- Settles O22: BUILD's state is the state before with the new tree, an empty code table, the flags and `ST_OK`. -/
theorem buildCompletes : Obligations.BuildCompletes := by
  intro s min hf
  refine ⟨buildState min s, exec_build_clear hf min, ?_, fun i hi => ?_, fun i hi => ?_, rfl⟩
  · simp [buildState, hf]
  · exact (emptyCodes_getElem? i).trans (if_pos hi)
  · rw [buildState_nodeCount] at hi
    exact overwriteArena_high s.node _ (buildTree_length_le min s) hi

/-- Settles O23: the leaves are those of the included symbols and stand first. -/
theorem buildLeavesAreIncludedSymbols : Obligations.BuildLeavesAreIncludedSymbols := by
  intro s t min hf h
  obtain rfl := eq_buildState_of_exec hf h
  refine ⟨fun j k w hj hk => ?_, fun j nd hj hnd => ?_⟩
  · have hlt := (List.getElem?_eq_some_iff.mp hj).1
    rw [includedSymbols_length] at hlt
    obtain ⟨hcount, -⟩ := buildTree_counts min s
    rw [buildState_node_low min s (by omega), buildTree_getElem?_leaf s.weight min hlt, leafNodes_eq, List.getElem?_map,
      hj, Option.map_some, hk]
    rfl
  · rw [buildState_nodes] at hnd
    have hfirst := leavesFirst_iff.mp (leavesFirst_buildTree s.weight min) j nd hnd
    rw [leafCount, filter_leaf_buildTree, ← includedSymbols_length] at hfirst
    exact Bool.eq_false_of_not_eq_true fun hleaf => absurd (hfirst.mp hleaf) (Nat.not_lt.mpr hj)

/-- Settles O24: every merge takes two nodes from the queue and adds one, so `L` leaves give `2L - 1` nodes. -/
theorem buildCounts : Obligations.BuildCounts := by
  intro s t min hf h
  obtain rfl := eq_buildState_of_exec hf h
  obtain ⟨hcount, hroot⟩ := buildTree_counts min s
  obtain ⟨hpos, hle⟩ := leafNodes_length s.weight min
  rw [buildState_nodeCount, buildState_root, includedSymbols_length]
  refine ⟨hcount, hroot, hpos, hle, ?_⟩
  rintro rfl
  rw [← includedSymbols_length, includedSymbols_false, List.length_range]

/-- Settles O25, by the history of the merge loop: every round creates its node from the two lowest of the queue, and the
loop ends with the root alone. -/
theorem buildMergesTheTwoLowest : Obligations.BuildMergesTheTwoLowest := by
  intro s t min hf h
  obtain rfl := eq_buildState_of_exec hf h
  obtain ⟨root, hist, hroot⟩ := mergeHistory_buildTree s.weight min
  rw [buildState_nodes, buildState_root, hroot]
  refine ⟨fun i nd hi hl => ?_, fun j => ?_⟩
  · have hm := hist.merged i nd hi hl
    obtain ⟨-, -, hne⟩ := wfChildren_iff.mp hist.children i nd hi hl
    have hweight := wfWeights_iff.mp hist.weights nd (List.mem_of_getElem? hi) hl
    exact ⟨hm.leftQueued, hm.rightQueued, hne, hm.leftLowest, hm.rightLowest, hweight, hm.sym⟩
  · simpa using hist.inQueueAt_iff (j := j)

/-- Settles O26: the invariant of the merge loop, at its end, is the well-formedness and the shape. -/
theorem buildTreeIsWellFormed : Obligations.BuildTreeIsWellFormed := by
  intro s t min hf h
  obtain rfl := eq_buildState_of_exec hf h
  exact ⟨buildState_wfArena min s, buildState_treeShape min s⟩

/-- Settles O27: by induction on the depth below a node, and for the root by the sum that every merge keeps. -/
theorem buildWeightsAreExactSums : Obligations.BuildWeightsAreExactSums := by
  intro s t min hf h
  obtain rfl := eq_buildState_of_exec hf h
  obtain ⟨root, hist, hroot⟩ := mergeHistory_buildTree s.weight min
  rw [buildState_nodes, buildState_root, hroot]
  refine ⟨fun i nd hi => ?_, ?_⟩
  · exact (leafWeightSum_eq_weight hist.children hist.weights hi (List.getElem?_eq_some_iff.mp hi).1).symm
  · rw [← leafNodes_weights, ← hist.sum, weightAt_of_getElem? (hist.queued root (by simp))]
    simp

/-- Settles O28: the tree is `buildTree` of the weights and `MIN`. -/
theorem buildIsDeterministic : Obligations.BuildIsDeterministic := by
  intro s1 s2 t1 t2 min hf1 hf2 hw h1 h2
  obtain rfl := eq_buildState_of_exec hf1 h1
  obtain rfl := eq_buildState_of_exec hf2 h2
  refine ⟨?_, BitVec.eq_of_toNat_eq ?_, BitVec.eq_of_toNat_eq ?_⟩
  · rw [buildState_nodes, buildState_nodes, hw]
  · rw [buildState_root, buildState_root, hw]
  · rw [buildState_nodeCount, buildState_nodeCount, hw]

/-- Settles O29: two leaves stand in the order of their symbols, and the other keys are weight and index already. -/
theorem nodeOrderIsWeightThenIndex : Obligations.NodeOrderIsWeightThenIndex := by
  intro s t min hf h a b x y ha hb _
  obtain rfl := eq_buildState_of_exec hf h
  obtain ⟨root, hinv, -⟩ := mergeInv_buildTree s.weight min
  rw [buildState_nodes] at ha hb
  exact hinv.nodeLess_iff ha hb

end Sys2Proof.Machine
end

section
/-! SUPPORT. The statements about ASSIGN: what its walk answers, what the table then holds on a well-formed arena, and that
under the invariant no command stops or finds a violation (41_assign.md rules R120 to R127). -/
namespace Sys2Proof.Machine

/-! ## What ASSIGN answers -/

theorem exec_assign_tree {s : State} (hf : s.status.fault = false) (hv : s.status.treeValid = true) :
    exec .assign s = assignWalk s := by
  rw [exec_assign_clear hf, if_pos hv]

section
variable {s : State}

theorem assignWalk_of_missing (h : walk s.node s.nodeCount walkFuel s.root [] = .missing) :
    assignWalk s = .next (assignFault s) := by
  rw [assignWalk, h]

theorem assignWalk_of_leaves {l : List (Symbol × List Bool)} (hl : walk s.node s.nodeCount walkFuel s.root [] = .leaves l)
    (hwf : wfArena s.node s.nodeCount s.root = true) : assignWalk s = .next (assignDone s l) := by
  rw [assignWalk, hl]
  exact if_pos hwf

/-- Where no missing child is met an arena that is not well formed is refused, whether the walk returns or goes round a cycle
(41_assign.md rule R126; log entry 6). -/
theorem assignWalk_of_illFormed (h : walk s.node s.nodeCount walkFuel s.root [] ≠ .missing)
    (hwf : wfArena s.node s.nodeCount s.root = false) : assignWalk s = .refused .assignIllFormed := by
  rw [assignWalk, hwf]
  cases hw : walk s.node s.nodeCount walkFuel s.root [] with
  | missing => exact absurd hw h
  | endless => rfl
  | leaves l => rfl

/-- On a well-formed arena the walk of ASSIGN returns and ASSIGN completes (41_assign.md rules R120, R126). -/
theorem exists_assignWalk_eq_done (hwf : wfArena s.node s.nodeCount s.root = true) :
    ∃ l, walk s.node s.nodeCount walkFuel s.root [] = .leaves l ∧ assignWalk s = .next (assignDone s l) := by
  obtain ⟨l, hl⟩ := exists_walk_eq_leaves hwf
  exact ⟨l, hl, assignWalk_of_leaves hl hwf⟩

theorem assignWalk_refused {r : Refusal} (h : assignWalk s = .refused r) :
    r = .assignIllFormed ∧ wfArena s.node s.nodeCount s.root = false := by
  cases hwf : wfArena s.node s.nodeCount s.root with
  | true =>
    obtain ⟨l, -, hdone⟩ := exists_assignWalk_eq_done hwf
    cases hdone.symm.trans h
  | false =>
    by_cases hm : walk s.node s.nodeCount walkFuel s.root [] = .missing
    · cases (assignWalk_of_missing hm).symm.trans h
    · cases (assignWalk_of_illFormed hm hwf).symm.trans h
      exact ⟨rfl, rfl⟩

theorem assignDone_status (hf : s.status.fault = false) (hv : s.status.treeValid = true) (l : List (Symbol × List Bool)) :
    (assignDone s l).status = { code := .ok, treeValid := true, codesValid := true, fault := false } := by
  simp [assignDone, hf, hv]

theorem assignFault_status (hv : s.status.treeValid = true) :
    (assignFault s).status = { code := .invariant, treeValid := true, codesValid := false, fault := true } := by
  simp [assignFault, hv]

end

/-! ## The table on a well-formed arena -/

/-- Clause (e) of `WF` by indices: leaves of one symbol are one leaf (10_state.md rule R38). -/
theorem wfSymbols_iff {l : List Node} :
    wfSymbols l = true ↔ ∀ (i j : Nat) (x y : Node), i < j → l[i]? = some x → l[j]? = some y → x.leaf = true →
      y.leaf = true → x.sym ≠ y.sym := by
  rw [wfSymbols, decide_eq_true_eq, List.Nodup, List.pairwise_map, List.pairwise_filter, List.pairwise_iff_getElem]
  constructor
  · intro h i j x y hij hx hy
    obtain ⟨hi, rfl⟩ := List.getElem?_eq_some_iff.mp hx
    obtain ⟨hj, rfl⟩ := List.getElem?_eq_some_iff.mp hy
    exact h i j hi hj hij
  · intro h i j hi hj hij
    exact h i j _ _ hij (List.getElem?_eq_getElem hi) (List.getElem?_eq_getElem hj)

/-- A symbol without an entry keeps the absent element (41_assign.md rule R120). -/
theorem codeTable_absent {l : List (Symbol × List Bool)} {k : Nat} (hk : k < 128) (h : ∀ e ∈ l, e.1.toNat ≠ k) :
    (codeTable l)[k]? = some Code.absent := by
  induction l using List.reverseRecOn with
  | nil => exact (emptyCodes_getElem? k).trans (if_pos hk)
  | append_singleton l e ih =>
    rw [codeTable_concat, Vector.getElem?_setIfInBounds_ne (h e (by simp))]
    exact ih fun e he => h e (List.mem_append_left _ he)

/-- A symbol that no leaf has gets no code (41_assign.md rule R120). -/
theorem codeTable_absent_of_no_leaf {s : State} {l : List (Symbol × List Bool)}
    (hl : walk s.node s.nodeCount walkFuel s.root [] = .leaves l) {k : Nat} (hk : k < 128)
    (hno : ∀ j nd, nodeAt s.node s.nodeCount j = some nd → nd.leaf = true → nd.sym.toNat ≠ k) :
    (codeTable l)[k]? = some Code.absent := by
  refine codeTable_absent hk fun e he => ?_
  obtain ⟨q, j, nd, rfl, -, hj, hleaf⟩ := (mem_of_walk_eq_leaves hl e).mp he
  exact hno j nd hj hleaf

section
variable {N : Vector Node 255} {n r : NodeIdx} (h : wfArena N n r = true)
include h

theorem eq_of_leaf_sym_eq {i j : NodeIdx} {x y : Node} (hi : nodeAt N n i = some x) (hj : nodeAt N n j = some y)
    (hx : x.leaf = true) (hy : y.leaf = true) (hsym : x.sym = y.sym) : i = j := by
  obtain ⟨-, -, -, -, hs, -⟩ := wfArena_iff.mp h
  rw [nodeAt_eq] at hi hj
  rcases Nat.lt_trichotomy i.toNat j.toNat with hlt | heq | hlt
  · exact absurd hsym (wfSymbols_iff.mp hs _ _ x y hlt hi hj hx hy)
  · exact BitVec.eq_of_toNat_eq heq
  · exact absurd hsym.symm (wfSymbols_iff.mp hs _ _ y x hlt hj hi hy hx)

/-- Where the root is a leaf it is the only node: the others would be reached from it. -/
theorem eq_root_of_leaf {nd : Node} (hr : nodeAt N n r = some nd) (hl : nd.leaf = true) {j : NodeIdx}
    (hj : j.toNat < n.toNat) : j = r := by
  obtain ⟨p, hp⟩ := exists_follow_root h j hj
  exact ((follow_of_leaf hr hl).mp hp).2

/-- The root is a leaf exactly in the tree of one node (41_assign.md rule R123). -/
theorem leaf_root_iff {nd : Node} (hr : nodeAt N n r = some nd) : nd.leaf = true ↔ n = 1#8 := by
  obtain ⟨hn, -, hc, -⟩ := wfArena_iff.mp h
  obtain ⟨hpos, -, hodd, hlt⟩ := wfCount_iff.mp hn
  constructor
  · intro hl
    have only (k : Nat) (hk : k < n.toNat) : k = r.toNat := by
      have hmod : (BitVec.ofNat 8 k).toNat = k := by rw [BitVec.toNat_ofNat]; omega
      rw [← hmod, eq_root_of_leaf h hr hl (j := BitVec.ofNat 8 k) (by omega)]
    refine BitVec.eq_of_toNat_eq (?_ : n.toNat = 1)
    by_contra hne
    have h0 := only 0 (by omega)
    have h1 := only 1 (by omega)
    omega
  · rintro rfl
    by_contra hl
    have hdown := child_lt hc hr (Bool.eq_false_of_not_eq_true hl) false
    have hroot : r.toNat < 1 := hlt
    omega

end

section
variable {s : State} {l : List (Symbol × List Bool)} (h : wfArena s.node s.nodeCount s.root = true)
  (hl : walk s.node s.nodeCount walkFuel s.root [] = .leaves l)
include h hl

/-- A valid code in the table is the path of its symbol's leaf (41_assign.md rule R121). -/
theorem exists_leaf_of_valid {k : Nat} {c : Code} (hk : (codeTable l)[k]? = some c) (hv : c.valid = true) :
    ∃ j nd, follow s.node s.nodeCount s.root (codeSequence c) = some j ∧ nodeAt s.node s.nodeCount j = some nd ∧
      nd.leaf = true ∧ nd.sym.toNat = k :=
  leafAtPath_iff.mp (codesAgree_iff.mp (codesAgree_assignDone h hl) k c hk hv)

/-- The symbol of every leaf has the leaf's path packed as its code: no other leaf has that symbol (41_assign.md rules R121,
R122). -/
theorem exists_path_of_leaf {j : NodeIdx} {nd : Node} (hj : nodeAt s.node s.nodeCount j = some nd)
    (hleaf : nd.leaf = true) :
    ∃ p, follow s.node s.nodeCount s.root p = some j ∧ (codeTable l)[nd.sym.toNat]? = some (packCode p) := by
  obtain ⟨c, hc, hv⟩ := codesComplete_iff.mp (codesComplete_assignDone h hl) nd (nodeAt_mem hj) hleaf
  obtain ⟨p, hp, -, rfl⟩ := exists_mem_of_codeTable_valid hc hv
  obtain ⟨q, j', nd', he, hf, hj', hleaf'⟩ := (mem_of_walk_eq_leaves hl _).mp hp
  obtain ⟨hsym, rfl⟩ := Prod.mk.inj he
  obtain rfl := eq_of_leaf_sym_eq h hj hj' hleaf hleaf' (by simpa using hsym)
  exact ⟨p, hf, hc⟩

end

/-! ## The walk reads the current tree alone -/

theorem nodeAt_congr {N N' : Vector Node 255} {n : NodeIdx} (h : treeNodes N n = treeNodes N' n) (i : NodeIdx) :
    nodeAt N n i = nodeAt N' n i := by
  rw [nodeAt_eq, nodeAt_eq, h]

theorem walk_congr {N N' : Vector Node 255} {n : NodeIdx} (h : treeNodes N n = treeNodes N' n) (fuel : Nat) (i : NodeIdx)
    (p : List Bool) : walk N n fuel i p = walk N' n fuel i p := by
  induction fuel generalizing i p with
  | zero => rw [walk, walk, nodeAt_congr h]
  | succ fuel ih => simp only [walk, nodeAt_congr h, ih]

theorem wfArena_congr {N N' : Vector Node 255} {n : NodeIdx} (h : treeNodes N n = treeNodes N' n) (r : NodeIdx) :
    wfArena N n r = wfArena N' n r := by
  rw [wfArena, wfArena, h]

/-! ## The statements -/

/-- Settles O30: on a well-formed arena the walk returns with every leaf and its path, and no two leaves share a symbol. -/
theorem assignCompletes : Obligations.AssignCompletes := by
  intro s hf hv hwf
  obtain ⟨l, hl, hdone⟩ := exists_assignWalk_eq_done hwf
  refine ⟨assignDone s l, (exec_assign_tree hf hv).trans hdone, fun j nd hj hleaf => ?_,
    fun k hk hno => codeTable_absent_of_no_leaf hl hk hno, ?_⟩
  · obtain ⟨p, hp, hcode⟩ := exists_path_of_leaf hwf hl hj hleaf
    have hlen := follow_length_le_of_wf hwf hp
    exact ⟨p, packCode p, hp, hcode, rfl, packCode_len p hlen, fun k _ => packCode_bits p hlen k⟩
  · rw [← assignDone_status hf hv l]
    rfl

/-- Settles O31, by the cases of ASSIGN's next states. -/
theorem assignFrame : Obligations.AssignFrame := by
  intro s t h
  obtain ⟨hf, rfl⟩ | ⟨-, -, rfl⟩ | ⟨hf, hv, h⟩ := exec_assign_next h
  · exact ⟨rfl, rfl, fun _ => rfl, fun _ => rfl⟩
  · exact ⟨rfl, rfl, fun _ => rfl, fun _ => rfl⟩
  · have hlatched : s.status.fault = true → t.code = s.code := by simp [hf]
    have hnoTree : s.status.treeValid = false → t.code = s.code := by simp [hv]
    obtain ⟨-, rfl⟩ | ⟨l, -, -, rfl⟩ := assignWalk_next h <;> exact ⟨rfl, rfl, hlatched, hnoTree⟩

/-- Settles O32: ASSIGN's bounded walk meets a missing child where the unbounded one does. -/
theorem assignFaultsOnMissingChild : Obligations.AssignFaultsOnMissingChild := by
  intro s hf hv hm
  have hwalk := (walk_missing_iff s.node s.nodeCount s.root).mpr hm
  refine ⟨assignFault s, (exec_assign_tree hf hv).trans (assignWalk_of_missing hwalk), fun k hk => ?_, ?_⟩
  · exact (emptyCodes_getElem? k).trans (if_pos hk)
  · rw [← assignFault_status hv]
    rfl

/-- Settles O33: the bounded walk meets no missing child where the unbounded one meets none. -/
theorem assignStopsOnIllFormedArena : Obligations.AssignStopsOnIllFormedArena := by
  intro s hf hv hm hwf
  have hwalk := mt (walk_missing_iff s.node s.nodeCount s.root).mp hm
  exact (exec_assign_tree hf hv).trans (assignWalk_of_illFormed hwalk hwf)

/-- Settles O34: with the latch set or no tree ASSIGN answers a next state, and on a well-formed arena its walk returns. -/
theorem assignStopsOnNoWellFormedTree : Obligations.AssignStopsOnNoWellFormedTree := by
  intro s r h
  cases hf : s.status.fault with
  | true => cases (exec_latched hf .assign).symm.trans h
  | false =>
    cases hv : s.status.treeValid with
    | false =>
      rw [exec_assign_clear hf, hv] at h
      cases h
    | true =>
      obtain ⟨rfl, hwf⟩ := assignWalk_refused ((exec_assign_tree hf hv).symm.trans h)
      exact ⟨rfl, rfl, rfl, hwf⟩

/-- Settles O35: the path of a root that is a leaf is empty, and there is no other leaf. -/
theorem assignSingleLeafGivesEmptyCode : Obligations.AssignSingleLeafGivesEmptyCode := by
  intro s nd hf hv hwf hroot hleaf
  obtain ⟨l, hl, hdone⟩ := exists_assignWalk_eq_done hwf
  refine ⟨assignDone s l, (exec_assign_tree hf hv).trans hdone, rfl, ?_, fun k hk hne => ?_⟩
  · obtain ⟨p, hp, hcode⟩ := exists_path_of_leaf hwf hl hroot hleaf
    obtain ⟨rfl, -⟩ := (follow_of_leaf hroot hleaf).mp hp
    exact hcode
  · refine codeTable_absent_of_no_leaf hl hk fun j nd' hj _ hsym => hne ?_
    obtain rfl := eq_root_of_leaf hwf hroot hleaf (lt_of_nodeAt hj)
    obtain rfl : nd = nd' := Option.some.inj (hroot.symm.trans hj)
    exact hsym.symm

/-- Settles O36: valid codes are paths to leaves, no path goes on past a leaf, and the empty path ends at the root. -/
theorem assignedCodesArePrefixFree : Obligations.AssignedCodesArePrefixFree := by
  intro s t hf hv hwf h
  obtain ⟨l, hl, hdone⟩ := exists_assignWalk_eq_done hwf
  obtain rfl : assignDone s l = t := Host.Outcome.next.inj (((exec_assign_tree hf hv).trans hdone).symm.trans h)
  refine ⟨fun a b c d ha hb hc hd hab hprefix => hab ?_, fun a c ha hc => ?_⟩
  · obtain ⟨i, x, hi, hx, hleafx, rfl⟩ := exists_leaf_of_valid hwf hl ha hc
    obtain ⟨j, y, hj, hy, -, rfl⟩ := exists_leaf_of_valid hwf hl hb hd
    obtain ⟨q, hq⟩ := hprefix
    rw [← hq, follow_append hi, follow_of_leaf hx hleafx] at hj
    obtain ⟨-, rfl⟩ := hj
    rw [Option.some.inj (hx.symm.trans hy)]
  · obtain ⟨j, x, hj, hx, hleafx, -⟩ := exists_leaf_of_valid hwf hl ha hc
    obtain ⟨nd, hroot⟩ := exists_nodeAt_root hwf
    have hlen : (codeSequence c).length = c.len.toNat := by simp [codeSequence]
    split
    · next hone =>
      obtain ⟨hnil, -⟩ := (follow_of_leaf hroot ((leaf_root_iff hwf hroot).mpr hone)).mp hj
      exact BitVec.eq_of_toNat_eq (by rw [← hlen, hnil]; rfl)
    · next hmany =>
      refine ⟨Nat.pos_of_ne_zero fun hzero => hmany ?_, Nat.le_of_lt_succ c.len.isLt⟩
      rw [List.eq_nil_of_length_eq_zero (hlen.trans hzero), follow_nil] at hj
      obtain ⟨rfl, -⟩ := hj
      exact (leaf_root_iff hwf hx).mp hleafx

/-- Settles O37: the walk and `WF` read the nodes of the current tree alone, and what ASSIGN writes is read off the walk. -/
theorem assignIsDeterministic : Obligations.AssignIsDeterministic := by
  intro s1 s2 t1 hf1 hf2 hv1 hv2 hn hr ht h
  rw [exec_assign_tree hf1 hv1] at h
  rw [exec_assign_tree hf2 hv2]
  rw [← hn] at ht
  obtain ⟨hm, rfl⟩ | ⟨l, hl, hwf, rfl⟩ := assignWalk_next h
  · rw [walk_congr ht, hn, hr] at hm
    exact ⟨assignFault s2, assignWalk_of_missing hm, rfl, (assignFault_status hv1).trans (assignFault_status hv2).symm⟩
  · rw [walk_congr ht, hn, hr] at hl
    rw [wfArena_congr ht, hn, hr] at hwf
    exact ⟨assignDone s2 l, assignWalk_of_leaves hl hwf, rfl,
      (assignDone_status hf1 hv1 l).trans (assignDone_status hf2 hv2 l).symm⟩

/-- Settles O57: BUILD always completes, ASSIGN has a well-formed tree or none, and DECODE meets no missing child in one. -/
theorem noCommandStopsOrFaultsUnderTheInvariant : Obligations.NoCommandStopsOrFaultsUnderTheInvariant := by
  intro s i h
  cases i with
  | build min => exact ⟨buildState min s, exec_build_clear h.noFault min, nofun, h.noFault⟩
  | assign =>
    cases hv : s.status.treeValid with
    | false => exact ⟨s.finish .noTree, by rw [exec_assign_clear h.noFault, hv]; rfl, nofun, h.noFault⟩
    | true =>
      obtain ⟨l, -, hdone⟩ := exists_assignWalk_eq_done (h.wfArena hv)
      exact ⟨assignDone s l, (exec_assign_tree h.noFault hv).trans hdone, nofun, h.noFault⟩
  | decode =>
    obtain ⟨x, n, c, heq, hc, -⟩ := exists_decodeState_eq_finish h.wfArena
    exact ⟨(s.setDecoded x n).finish c, heq ▸ exec_decode_clear h.noFault, hc, h.noFault⟩

end Sys2Proof.Machine
end

section
/-! SUPPORT. The statements about DECODE: how its walk ends along a path of the tree, which bits the window hands to it, and
that the host's loop gives an encoded stream back (42_decode.md rules R140 to R149). -/
namespace Sys2Proof.Machine

/-! ## Paths -/

section
variable {N : Vector Node 255} {n r i j : NodeIdx} {nd nd' : Node} {p q t : List Bool} {b : Bool}

theorem exists_nodeAt_of_follow (h : follow N n i p = some j) : ∃ nd, nodeAt N n i = some nd := by
  cases p with
  | nil => exact (follow_nil.mp h).2
  | cons b p => exact (follow_cons.mp h).imp fun _ hnd => hnd.1

/-- A path splits where its bits do; `follow_append` is the converse. -/
theorem exists_follow_of_append (h : follow N n i (p ++ q) = some j) :
    ∃ m, follow N n i p = some m ∧ follow N n m q = some j := by
  induction p generalizing i with
  | nil => exact ⟨i, follow_nil.mpr ⟨rfl, exists_nodeAt_of_follow h⟩, h⟩
  | cons b p ih =>
    obtain ⟨nd, hi, hl, hf⟩ := follow_cons.mp h
    obtain ⟨m, hp, hq⟩ := ih hf
    exact ⟨m, follow_cons.mpr ⟨nd, hi, hl, hp⟩, hq⟩

/-- So what a path begins with, and goes on from, ends at an internal node. -/
theorem exists_internal_of_proper_prefix (h : follow N n i p = some j) (hq : q <+: p) (hne : q ≠ p) :
    ∃ m nd, follow N n i q = some m ∧ nodeAt N n m = some nd ∧ nd.leaf = false := by
  obtain ⟨rest, rfl⟩ := hq
  obtain ⟨m, hm, hrest⟩ := exists_follow_of_append h
  cases rest with
  | nil => exact absurd (List.append_nil q).symm hne
  | cons b rest =>
    obtain ⟨nd, hnd, hl, -⟩ := follow_cons.mp hrest
    exact ⟨m, nd, hm, hnd, hl⟩

/-- On a well-formed arena the path to an internal node has at most 126 steps, since it goes on (42_decode.md rule R146). -/
theorem follow_length_le_of_internal (h : wfArena N n r = true) (hp : follow N n r p = some j)
    (hj : nodeAt N n j = some nd) (hl : nd.leaf = false) : p.length ≤ 126 := by
  obtain ⟨-, -, hc, -⟩ := wfArena_iff.mp h
  have hchild : follow N n j [false] = some (child nd false) :=
    follow_cons.mpr ⟨nd, hj, hl, follow_nil.mpr ⟨rfl, exists_nodeAt_child hc hj hl false⟩⟩
  have hlong := follow_length_le_of_wf h ((follow_append hp).trans hchild)
  rw [List.length_append, List.length_singleton] at hlong
  omega

/-- On a well-formed arena of two or more leaves the path to a leaf is not empty (42_decode.md rule R147). -/
theorem path_ne_nil_of_leaf (h : wfArena N n r = true) (hn : 3 ≤ n.toNat) (hp : follow N n r p = some j)
    (hj : nodeAt N n j = some nd) (hl : nd.leaf = true) : p ≠ [] := by
  rintro rfl
  obtain ⟨rfl, -⟩ := follow_nil.mp hp
  rw [(leaf_root_iff h hj).mp hl] at hn
  exact absurd hn (by decide)

/-! ## The loop -/

theorem decodeLoop_leaf (hl : nd.leaf = true) (input : List Bool) (k : Nat) :
    decodeLoop N n input nd k = .symbol nd.sym k := by
  cases input <;> simp [decodeLoop, hl]

theorem decodeLoop_outOfBits (hl : nd.leaf = false) (k : Nat) : decodeLoop N n [] nd k = .outOfBits k := by
  simp [decodeLoop, hl]

/-- The transition of 42_decode.md rule R142. -/
theorem decodeLoop_child (hl : nd.leaf = false) (hb : nodeAt N n (child nd b) = some nd') (input : List Bool) (k : Nat) :
    decodeLoop N n (b :: input) nd k = decodeLoop N n input nd' (k + 1) := by
  simp [decodeLoop, hl, hb]

theorem decodeLoop_missing (hl : nd.leaf = false) (hb : nodeAt N n (child nd b) = none) (input : List Bool) (k : Nat) :
    decodeLoop N n (b :: input) nd k = .missing (k + 1) := by
  simp [decodeLoop, hl, hb]

/-- The loop follows a path of the tree to its end, one bit a step (42_decode.md rule R142). -/
theorem decodeLoop_append (h : follow N n i p = some j) (hi : nodeAt N n i = some nd) (hj : nodeAt N n j = some nd')
    (t : List Bool) (k : Nat) : decodeLoop N n (p ++ t) nd k = decodeLoop N n t nd' (k + p.length) := by
  induction p generalizing i nd k with
  | nil =>
    obtain ⟨rfl, -⟩ := follow_nil.mp h
    obtain rfl : nd = nd' := Option.some.inj (hi.symm.trans hj)
    rfl
  | cons b p ih =>
    obtain ⟨nd₁, hi₁, hl, hf⟩ := follow_cons.mp h
    obtain rfl : nd = nd₁ := Option.some.inj (hi.symm.trans hi₁)
    obtain ⟨nd₂, hc⟩ := exists_nodeAt_of_follow hf
    rw [List.cons_append, decodeLoop_child hl hc, ih hf hc, List.length_cons, Nat.add_comm p.length 1, Nat.add_assoc]

/-- A loop that runs out of bits has followed them all, to an internal node. -/
theorem follow_of_decodeLoop_outOfBits {input : List Bool} {k m : Nat} (hi : nodeAt N n i = some nd)
    (h : decodeLoop N n input nd k = .outOfBits m) :
    m = k + input.length ∧ ∃ j nd', follow N n i input = some j ∧ nodeAt N n j = some nd' ∧ nd'.leaf = false := by
  induction input generalizing i nd k with
  | nil =>
    cases hl : nd.leaf with
    | true => cases (decodeLoop_leaf hl [] k).symm.trans h
    | false =>
      cases (decodeLoop_outOfBits hl k).symm.trans h
      exact ⟨rfl, i, nd, follow_nil.mpr ⟨rfl, nd, hi⟩, hi, hl⟩
  | cons b rest ih =>
    cases hl : nd.leaf with
    | true => cases (decodeLoop_leaf hl (b :: rest) k).symm.trans h
    | false =>
      cases hc : nodeAt N n (child nd b) with
      | none => cases (decodeLoop_missing hl hc rest k).symm.trans h
      | some nd₁ =>
        obtain ⟨rfl, j, nd', hf, hj⟩ := ih hc ((decodeLoop_child hl hc rest k).symm.trans h)
        exact ⟨by rw [List.length_cons]; omega, j, nd', follow_cons.mpr ⟨nd, hi, hl, hf⟩, hj⟩

end

/-! ## The walk of one DECODE -/

/-- How one DECODE of an input ends, empty input and missing root among the ends (42_decode.md rules R143, R145). -/
def decodeWalk (N : Vector Node 255) (n r : NodeIdx) (input : List Bool) : DecodeEnd :=
  if input = [] then .outOfBits 0
  else
    match nodeAt N n r with
    | none => .missing 0
    | some nd => decodeLoop N n input nd 0

section
variable {N : Vector Node 255} {n r j : NodeIdx} {nd : Node} {p t input : List Bool} {b : Bool}

theorem decodeWalk_missing_root (h : nodeAt N n r = none) (hne : input ≠ []) : decodeWalk N n r input = .missing 0 := by
  rw [decodeWalk, if_neg hne, h]

theorem decodeWalk_root (h : nodeAt N n r = some nd) (hne : input ≠ []) :
    decodeWalk N n r input = decodeLoop N n input nd 0 := by
  rw [decodeWalk, if_neg hne, h]

/-- Past a path of the tree the walk goes on from its end. -/
theorem decodeWalk_append (h : follow N n r p = some j) (hj : nodeAt N n j = some nd) (hne : p ++ t ≠ []) :
    decodeWalk N n r (p ++ t) = decodeLoop N n t nd p.length := by
  obtain ⟨root, hr⟩ := exists_nodeAt_of_follow h
  rw [decodeWalk_root hr hne, decodeLoop_append h hr hj, Nat.zero_add]

theorem decodeWalk_outOfBits (h : follow N n r p = some j) (hj : nodeAt N n j = some nd) (hl : nd.leaf = false) :
    decodeWalk N n r p = .outOfBits p.length := by
  by_cases hp : p = []
  · subst hp; rfl
  · have hwalk := decodeWalk_append (t := []) h hj (by rwa [List.append_nil])
    rwa [List.append_nil, decodeLoop_outOfBits hl] at hwalk

/-- On a well-formed arena the walk ends on a leaf after at most 127 bits or out of bits after at most 126 (42_decode.md
rule R146). -/
theorem decodeWalk_cases_of_wf (h : wfArena N n r = true) (input : List Bool) :
    (∃ sym k, decodeWalk N n r input = .symbol sym k ∧ k ≤ 127) ∨
      ∃ k, decodeWalk N n r input = .outOfBits k ∧ k ≤ 126 := by
  by_cases hne : input = []
  · subst hne; exact .inr ⟨0, rfl, by decide⟩
  obtain ⟨-, -, hc, -⟩ := wfArena_iff.mp h
  obtain ⟨root, hr⟩ := exists_nodeAt_root h
  rw [decodeWalk_root hr hne]
  obtain ⟨q, j, hf, ⟨sym, hend⟩ | hend⟩ := exists_follow_of_decodeLoop hc hr input 0
  · exact .inl ⟨sym, _, hend, by rw [Nat.zero_add]; exact follow_length_le_of_wf h hf⟩
  · obtain ⟨hk, j', nd', hf', hj', hl'⟩ := follow_of_decodeLoop_outOfBits hr hend
    exact .inr ⟨_, hend, by rw [hk, Nat.zero_add]; exact follow_length_le_of_internal h hf' hj' hl'⟩

/-- The walk reads the nodes of the current tree alone (42_decode.md rule R149). -/
theorem decodeWalk_congr {N' : Vector Node 255} (h : treeNodes N n = treeNodes N' n) (input : List Bool) :
    decodeWalk N n r input = decodeWalk N' n r input := by
  have hloop (input : List Bool) (nd : Node) (k : Nat) : decodeLoop N n input nd k = decodeLoop N' n input nd k := by
    induction input generalizing nd k with
    | nil => rfl
    | cons b rest ih => simp only [decodeLoop, nodeAt_congr h, ih]
  simp only [decodeWalk, nodeAt_congr h, hloop]

end

/-! ## The window -/

section
variable {s : State} {p : List Bool}

theorem windowLegal_iff : windowLegal s = true ↔ s.bitpos.toNat ≤ s.bitlen.toNat ∧ s.bitlen.toNat ≤ s.bits.length := by
  simp only [windowLegal, Bool.and_eq_true, decide_eq_true_eq]

theorem window_getElem? (k : Nat) :
    (window s)[k]? = if k < s.bitlen.toNat - s.bitpos.toNat then s.bits[s.bitpos.toNat + k]? else none := by
  rw [window, List.getElem?_take, List.getElem?_drop]

theorem window_length_le (s : State) : (window s).length ≤ s.bitlen.toNat - s.bitpos.toNat :=
  List.length_take_le _ _

theorem window_ne_nil (hlt : s.bitpos.toNat < s.bitlen.toNat) (hle : s.bitlen.toNat ≤ s.bits.length) : window s ≠ [] := by
  refine List.ne_nil_of_length_pos ?_
  rw [window, List.length_take, List.length_drop]
  omega

theorem bitsBegin_nil (s : State) : bitsBegin s [] := nofun

theorem prefix_window (hb : bitsBegin s p) (hp : s.bitpos.toNat + p.length ≤ s.bitlen.toNat) : p <+: window s := by
  refine List.prefix_iff_getElem?.mpr fun k hk => ?_
  rw [window_getElem?, if_pos (by omega)]
  exact hb k p[k] (List.getElem?_eq_getElem hk)

theorem window_eq (hb : bitsBegin s p) (hp : s.bitpos.toNat + p.length = s.bitlen.toNat) : window s = p :=
  ((prefix_window hb hp.le).eq_of_length_le (by have := window_length_le s; omega)).symm

theorem window_congr {s' : State} (hpos : s.bitpos = s'.bitpos) (hlen : s.bitlen = s'.bitlen)
    (hbits : ∀ i, s.bitpos.toNat ≤ i → i < s.bitlen.toNat → s.bits[i]? = s'.bits[i]?) : window s = window s' := by
  refine List.ext_getElem? fun k => ?_
  rw [window_getElem?, window_getElem?, ← hpos, ← hlen]
  split
  · exact hbits _ (by omega) (by omega)
  · rfl

/-- After the bits of `p` come those of `q`. -/
theorem bitsBegin_append {q : List Bool} (h : bitsBegin s (p ++ q)) :
    bitsBegin s p ∧ ∀ k b, q[k]? = some b → s.bits[s.bitpos.toNat + p.length + k]? = some b := by
  refine ⟨fun k b hk => h k b ?_, fun k b hk => ?_⟩
  · rwa [List.getElem?_append_left (List.getElem?_eq_some_iff.mp hk).1]
  · rw [Nat.add_assoc]
    exact h _ b (by rwa [List.getElem?_append_right (Nat.le_add_right _ _), Nat.add_sub_cancel_left])

end

/-! ## What DECODE answers -/

theorem consumedByte_toNat {k : Nat} (h : k < 256) : (consumedByte k).toNat = k := by
  rw [consumedByte, if_pos h, BitVec.toNat_ofNat, Nat.mod_eq_of_lt h]

/-- An end of the walk writes both result registers, whatever they held. -/
theorem decodeFinish_setDecoded (s : State) (x n : BitVec 8) (e : DecodeEnd) :
    decodeFinish (s.setDecoded x n) e = decodeFinish s e := by
  cases e <;> rfl

/-- One DECODE of an input leaves what the end of its walk leaves: with no bits, and at a missing root, the results stay as
they are first written, and those are the ones of a count of 0 (42_decode.md rules R140, R143, R145). -/
theorem decodeInput_setDecoded (s : State) (input : List Bool) :
    decodeInput (s.setDecoded 0xFF#8 0#8) input = decodeFinish s (decodeWalk s.node s.nodeCount s.root input) := by
  by_cases hne : input = []
  · subst hne; rfl
  rw [decodeInput, if_neg hne]
  simp only [State.setDecoded_node, State.setDecoded_nodeCount, State.setDecoded_root]
  cases hr : nodeAt s.node s.nodeCount s.root with
  | none => rw [decodeWalk_missing_root hr hne]; rfl
  | some nd =>
    rw [decodeWalk_root hr hne]
    exact decodeFinish_setDecoded s _ _ _

/-! The checks in the order of 60_exceptions.md rule R180. -/

theorem decodeState_noTree {s : State} (hv : s.status.treeValid = false) :
    decodeState s = (s.setDecoded 0xFF#8 0#8).finish .noTree := if_pos hv

theorem decodeState_badWindow {s : State} (hv : s.status.treeValid = true) (hw : windowLegal s = false) :
    decodeState s = (s.setDecoded 0xFF#8 0#8).finish .badOperand :=
  (if_neg (Bool.not_eq_false _ ▸ hv)).trans (if_pos hw)

theorem decodeState_legal {s : State} (hv : s.status.treeValid = true) (hw : windowLegal s = true) :
    decodeState s = decodeFinish s (decodeWalk s.node s.nodeCount s.root (window s)) :=
  (if_neg (Bool.not_eq_false _ ▸ hv)).trans
    ((if_neg (Bool.not_eq_false _ ▸ hw)).trans (decodeInput_setDecoded s (window s)))

/-- Everything DECODE can leave: a refusal, or an end of its walk. -/
theorem decodeState_refused_or_finish (s : State) :
    (∃ c, (c = .noTree ∨ c = .badOperand) ∧ decodeState s = (s.setDecoded 0xFF#8 0#8).finish c) ∨
      decodeState s = decodeFinish s (decodeWalk s.node s.nodeCount s.root (window s)) := by
  cases hv : s.status.treeValid with
  | false => exact .inl ⟨.noTree, .inl rfl, decodeState_noTree hv⟩
  | true =>
    cases hw : windowLegal s with
    | false => exact .inl ⟨.badOperand, .inr rfl, decodeState_badWindow hv hw⟩
    | true => exact .inr (decodeState_legal hv hw)

section
variable {s : State} (hf : s.status.fault = false) (hv : s.status.treeValid = true)
  (hle : s.bitlen.toNat ≤ s.bits.length)
include hf hv hle

theorem exec_decode_legal (hpos : s.bitpos.toNat ≤ s.bitlen.toNat) :
    exec .decode s = .next (decodeFinish s (decodeWalk s.node s.nodeCount s.root (window s))) := by
  rw [exec_decode_clear hf, decodeState_legal hv (windowLegal_iff.mpr ⟨hpos, hle⟩)]

section
variable {p : List Bool} {j : NodeIdx} {nd : Node} (hp : follow s.node s.nodeCount s.root p = some j)
  (hj : nodeAt s.node s.nodeCount j = some nd)
include hp hj

/-- A window that is not empty and begins with a path to a leaf (42_decode.md rule R140). -/
theorem exec_decode_leaf (hlt : s.bitpos.toNat < s.bitlen.toNat) (hlen : s.bitpos.toNat + p.length ≤ s.bitlen.toNat)
    (hb : bitsBegin s p) (hl : nd.leaf = true) :
    exec .decode s = .next (decodeFinish s (.symbol nd.sym p.length)) := by
  obtain ⟨t, ht⟩ := prefix_window hb hlen
  rw [exec_decode_legal hf hv hle hlt.le, ← ht, decodeWalk_append hp hj (ht ▸ window_ne_nil hlt hle), decodeLoop_leaf hl]

/-- A window that is a path to an internal node (42_decode.md rule R144). -/
theorem exec_decode_internal (hlen : s.bitpos.toNat + p.length = s.bitlen.toNat) (hb : bitsBegin s p)
    (hl : nd.leaf = false) : exec .decode s = .next (decodeFinish s (.outOfBits p.length)) := by
  rw [exec_decode_legal hf hv hle (by omega), window_eq hb hlen, decodeWalk_outOfBits hp hj hl]

/-- A window that goes on from an internal node to a missing child (42_decode.md rule R145). -/
theorem exec_decode_missing {b : Bool} (hlen : s.bitpos.toNat + p.length < s.bitlen.toNat) (hb : bitsBegin s (p ++ [b]))
    (hl : nd.leaf = false) (hc : nodeAt s.node s.nodeCount (child nd b) = none) :
    exec .decode s = .next (decodeFinish s (.missing (p.length + 1))) := by
  obtain ⟨t, ht⟩ := prefix_window hb (by rw [List.length_append, List.length_singleton]; omega)
  rw [List.append_assoc, List.singleton_append] at ht
  rw [exec_decode_legal hf hv hle (by omega), ← ht, decodeWalk_append hp hj (by simp), decodeLoop_missing hl hc]

end

end

/-! ## The statements about one DECODE -/

/-- Settles O39: the walk follows the path to the leaf and stops there. -/
theorem decodeCompletes : Obligations.DecodeCompletes := fun _ _ _ _ hf hv hlt hle hlen hb hp hj hl =>
  ⟨_, exec_decode_leaf hf hv hle hp hj hlt hlen hb hl, rfl, fun h => consumedByte_toNat h, rfl⟩

/-- Settles O40: the walk of no bits ends at once, whatever the tree. -/
theorem decodeOfEmptyInputIsIncomplete : Obligations.DecodeOfEmptyInputIsIncomplete := by
  intro s hf hv heq hle
  have hwindow : window s = [] := window_eq (bitsBegin_nil s) (by rw [heq]; rfl)
  rw [exec_decode_legal hf hv hle (by rw [heq]), hwindow]
  rfl

/-- Settles O41: the walk follows the whole window and is then out of bits. -/
theorem decodeOutOfBitsIsIncomplete : Obligations.DecodeOutOfBitsIsIncomplete :=
  fun _ _ _ _ hf hv hle hlen hb hp hj hl =>
    ⟨_, exec_decode_internal hf hv hle hp hj hlen hb hl, fun h => consumedByte_toNat h, rfl⟩

/-- Settles O42: the walk follows the path and its next bit selects a missing child, or it does not get to the root. -/
theorem decodeFaultsOnMissingChild : Obligations.DecodeFaultsOnMissingChild := by
  refine ⟨fun s p b j nd hf hv hle hlen hb hp hj hl hc => ?_, fun s hf hv hlt hle hroot => ?_⟩
  · exact ⟨_, exec_decode_missing hf hv hle hp hj hlen hb hl hc, fun h => consumedByte_toNat (Nat.succ_lt_succ h), rfl⟩
  · have hmissing : nodeAt s.node s.nodeCount s.root = none := if_pos hroot
    rw [exec_decode_legal hf hv hle hlt.le, decodeWalk_missing_root hmissing (window_ne_nil hlt hle)]
    rfl

/-- Settles O44: the path to a root that is a leaf is empty. -/
theorem decodeOnSingleLeafReadsNoBit : Obligations.DecodeOnSingleLeafReadsNoBit :=
  fun s nd hf hv hlt hle hroot hl =>
    exec_decode_leaf hf hv hle (follow_nil.mpr ⟨rfl, nd, hroot⟩) hroot hlt hlt.le (bitsBegin_nil s) hl

/-- Settles O45, by the cases of what DECODE can leave. -/
theorem decodeFrame : Obligations.DecodeFrame := by
  intro s
  cases hf : s.status.fault with
  | true => exact ⟨_, exec_latched hf .decode, rfl, rfl, rfl, nofun, fun _ => nofun⟩
  | false =>
    refine ⟨_, exec_decode_clear hf, ?_⟩
    obtain ⟨c, hc, h⟩ | h := decodeState_refused_or_finish s
    · rw [h]
      refine ⟨rfl, rfl, rfl, fun _ => ?_, fun _ _ => rfl⟩
      rcases hc with rfl | rfl <;> simp [hf]
    · rw [h]
      cases decodeWalk s.node s.nodeCount s.root (window s) with
      | symbol sym k => exact ⟨rfl, rfl, rfl, fun _ => by simp [decodeFinish, hf], fun hne => absurd rfl hne⟩
      | outOfBits k => exact ⟨rfl, rfl, rfl, fun _ => by simp [decodeFinish, hf], fun _ _ => rfl⟩
      | missing k => exact ⟨rfl, rfl, rfl, fun _ => by simp [decodeFinish], fun _ _ => rfl⟩

/-- Settles O46: the checks, the window and the walk read nothing but what the two states agree on, and what an end leaves in
the results is read off the end. -/
theorem decodeIsDeterministic : Obligations.DecodeIsDeterministic := by
  intro s1 s2 hf1 hf2 hcap hv hn hr ht hpos hlen hbits
  rw [← hn] at ht
  refine ⟨_, _, exec_decode_clear hf1, exec_decode_clear hf2, ?_⟩
  cases hv1 : s1.status.treeValid with
  | false =>
    rw [decodeState_noTree hv1, decodeState_noTree (hv ▸ hv1)]
    exact ⟨rfl, rfl, rfl⟩
  | true =>
    have hlegal : windowLegal s1 = windowLegal s2 := by rw [windowLegal, windowLegal, hpos, hlen, hcap]
    cases hw1 : windowLegal s1 with
    | false =>
      rw [decodeState_badWindow hv1 hw1, decodeState_badWindow (hv ▸ hv1) (hlegal ▸ hw1)]
      exact ⟨rfl, rfl, rfl⟩
    | true =>
      rw [decodeState_legal hv1 hw1, decodeState_legal (hv ▸ hv1) (hlegal ▸ hw1), window_congr hpos hlen hbits,
        ← hn, ← hr, decodeWalk_congr ht]
      cases decodeWalk s2.node s1.nodeCount s1.root (window s2) <;> exact ⟨rfl, rfl, rfl⟩

/-- Settles O47: on a well-formed arena the walk ends on a leaf or out of bits, and no path is longer than 127. -/
theorem decodeIsBoundedOnWellFormedTree : Obligations.DecodeIsBoundedOnWellFormedTree := by
  intro s t hf _ hwf h
  obtain rfl : decodeState s = t := Host.Outcome.next.inj ((exec_decode_clear hf).symm.trans h)
  obtain ⟨c, hc, hend⟩ | hend := decodeState_refused_or_finish s
  · rw [hend]
    rcases hc with rfl | rfl <;> exact ⟨Nat.zero_le 127, nofun, nofun, hf⟩
  · rw [hend]
    obtain ⟨sym, k, hwalk, hk⟩ | ⟨k, hwalk, hk⟩ := decodeWalk_cases_of_wf hwf (window s)
    · rw [hwalk]
      exact ⟨consumedByte_le hk, nofun, nofun, hf⟩
    · rw [hwalk]
      have hcount : (consumedByte k).toNat = k := consumedByte_toNat (by omega)
      exact ⟨hcount.trans_le (by omega), fun _ => hcount.trans_le hk, nofun, hf⟩

/-- On a well-formed tree of two or more leaves a leaf's path decodes to the leaf: it is not empty, so neither is the window
(42_decode.md rule R147). -/
theorem exec_decode_path {s : State} {p : List Bool} {j : NodeIdx} {nd : Node} (hf : s.status.fault = false)
    (hv : s.status.treeValid = true) (hwf : wfArena s.node s.nodeCount s.root = true) (hn : 3 ≤ s.nodeCount.toNat)
    (hle : s.bitlen.toNat ≤ s.bits.length) (hp : follow s.node s.nodeCount s.root p = some j)
    (hj : nodeAt s.node s.nodeCount j = some nd) (hl : nd.leaf = true) (hb : bitsBegin s p)
    (hlen : s.bitpos.toNat + p.length ≤ s.bitlen.toNat) :
    exec .decode s = .next (decodeFinish s (.symbol nd.sym p.length)) := by
  have hpos := List.length_pos_of_ne_nil (path_ne_nil_of_leaf hwf hn hp hj hl)
  exact exec_decode_leaf hf hv hle hp hj (by omega) hlen hb hl

/-- Settles O48: the walk follows the path to its leaf, and a beginning of it that is not the whole to an internal node. -/
theorem decodeInvertsThePath : Obligations.DecodeInvertsThePath := by
  intro s p j nd hf hv hwf hn hle _ hp hj hl
  have hshort := follow_length_le_of_wf hwf hp
  refine ⟨fun hb hlen => ?_, fun q hq hne hb hlen => ?_⟩
  · exact ⟨_, exec_decode_path hf hv hwf hn hle hp hj hl hb hlen, rfl, rfl, consumedByte_toNat (by omega)⟩
  · obtain ⟨m, nd', hm, hnd', hl'⟩ := exists_internal_of_proper_prefix hp hq hne
    have hq' := hq.length_le
    exact ⟨_, exec_decode_internal hf hv hle hm hnd' hlen hb hl', rfl, rfl, consumedByte_toNat (by omega)⟩

/-! ## The round trip -/

/-- `EMIT` appends the sequence of the symbol's code, which is a valid one (30_encoding.md rule R88). -/
theorem emit_eq_some {s : State} {a : Symbol} {p : List Bool} (h : emit s a = some p) :
    ∃ c, s.code[a.toNat]? = some c ∧ c.valid = true ∧ codeSequence c = p := by
  unfold emit at h
  split at h
  · cases h
  · next c hc =>
    split at h
    · exact ⟨c, hc, ‹_›, Option.some.inj h⟩
    · cases h

theorem emitAll_cons {s : State} {a : Symbol} {l : List Symbol} {p : List Bool} (h : emitAll s (a :: l) = some p) :
    ∃ q t, emit s a = some q ∧ emitAll s l = some t ∧ q ++ t = p := by
  rw [emitAll] at h
  cases hq : emit s a with
  | none => simp [hq] at h
  | some q =>
    cases ht : emitAll s l with
    | none => simp [hq, ht] at h
    | some t => exact ⟨q, t, rfl, rfl, by simpa [hq, ht] using h⟩

/-- `EMIT` reads the code table alone. -/
theorem emitAll_congr {s s' : State} (h : s'.code = s.code) (l : List Symbol) : emitAll s' l = emitAll s l := by
  induction l with
  | nil => rfl
  | cons a l ih => simp only [emitAll, emit, h, ih]

/-- Before the first BUILD there is no node, so a state with nodes has a tree (10_state.md rule R32). -/
theorem Inv.treeValid_of_nodes {s : State} (h : Inv s) (hn : 1 ≤ s.nodeCount.toNat) : s.status.treeValid = true := by
  by_contra hv
  obtain ⟨-, hcount⟩ := h.noTree (Bool.eq_false_of_not_eq_true hv)
  rw [hcount] at hn
  exact absurd hn (by decide)

/-- Under the invariant what `EMIT` appends for a symbol is the path of its leaf (10_state.md rule R40). -/
theorem Inv.exists_leaf_of_emit {s : State} (h : Inv s) {a : Symbol} {p : List Bool} (he : emit s a = some p) :
    ∃ j nd, follow s.node s.nodeCount s.root p = some j ∧ nodeAt s.node s.nodeCount j = some nd ∧ nd.leaf = true ∧
      nd.sym = a := by
  obtain ⟨c, hc, hvalid, rfl⟩ := emit_eq_some he
  obtain ⟨j, nd, hp, hj, hl, hsym⟩ := leafAtPath_iff.mp (codesAgree_iff.mp h.codes _ c hc hvalid)
  exact ⟨j, nd, hp, hj, hl, BitVec.eq_of_toNat_eq hsym⟩

/-- The state after one round of the host's loop: a DECODE that read `k` bits to a symbol, then `ADV`. -/
def decodedRound (s : State) (a : Symbol) (k : Nat) : State :=
  (decodeFinish s (.symbol a k)).setBitpos (advanced (decodeFinish s (.symbol a k)))

theorem decodeSymbols_succ {s : State} {a : Symbol} {k : Nat}
    (h : exec .decode s = .next (decodeFinish s (.symbol a k))) (m : Nat) :
    decodeSymbols (m + 1) s = (decodeSymbols m (decodedRound s a k)).map (a.setWidth 8 :: ·) := by
  rw [decodeSymbols, h]
  rfl

/-- `ADV` moves the position past the bits read; within a window the sum does not wrap (log entry 19). -/
theorem decodedRound_bitpos {s : State} {k : Nat} (a : Symbol) (hk : k < 256)
    (hlen : s.bitpos.toNat + k ≤ s.bitlen.toNat) : (decodedRound s a k).bitpos.toNat = s.bitpos.toNat + k := by
  have hlt := s.bitlen.isLt
  have hadv : (decodedRound s a k).bitpos = s.bitpos + (consumedByte k).setWidth 16 := rfl
  rw [hadv, BitVec.toNat_add, BitVec.toNat_setWidth, consumedByte_toNat hk]
  omega

theorem emitAll_decodedRound (s : State) (a : Symbol) (k : Nat) (l : List Symbol) :
    emitAll (decodedRound s a k) l = emitAll s l :=
  emitAll_congr (show (decodedRound s a k).code = s.code from rfl) l

theorem Inv.decodedRound {s : State} (h : Inv s) (a : Symbol) {k : Nat} (hk : k ≤ 127) : Inv (decodedRound s a k) :=
  ((h.setDecoded (.inl (symbolByte_le a)) (consumedByte_le hk)).finish .ok).setBitpos _

/-- Each round decodes the symbol whose code stands next and moves past that code. -/
theorem decodeSymbols_emitAll (l : List Symbol) {s : State} {p : List Bool} (h : Inv s) (hn : 3 ≤ s.nodeCount.toNat)
    (he : emitAll s l = some p) (hle : s.bitlen.toNat ≤ s.bits.length)
    (hlen : s.bitpos.toNat + p.length ≤ s.bitlen.toNat) (hb : bitsBegin s p) :
    decodeSymbols l.length s = some (l.map (·.setWidth 8)) := by
  induction l generalizing s p with
  | nil => rfl
  | cons a l ih =>
    obtain ⟨q, t, hq, ht, rfl⟩ := emitAll_cons he
    obtain ⟨j, nd, hpath, hj, hl, rfl⟩ := h.exists_leaf_of_emit hq
    obtain ⟨hbegin, hrest⟩ := bitsBegin_append hb
    rw [List.length_append] at hlen
    have hfits : s.bitpos.toNat + q.length ≤ s.bitlen.toNat := by omega
    have hv := h.treeValid_of_nodes (by omega)
    have hwf := h.wfArena hv
    have hshort := follow_length_le_of_wf hwf hpath
    have hdecode := exec_decode_path h.noFault hv hwf hn hle hpath hj hl hbegin hfits
    have hpos := decodedRound_bitpos nd.sym (Nat.lt_of_le_of_lt hshort (by decide)) hfits
    have hround : decodeSymbols l.length (decodedRound s nd.sym q.length) = some (l.map (·.setWidth 8)) := by
      refine ih (h.decodedRound nd.sym hshort) hn ((emitAll_decodedRound s nd.sym q.length l).trans ht) hle ?_ fun k b hk => ?_
      · rw [hpos]
        exact (Nat.add_assoc ..).trans_le hlen
      · rw [hpos]
        exact hrest k b hk
    rw [List.length_cons, decodeSymbols_succ hdecode, hround]
    rfl

/-- Settles O49: the stream is the codes of the symbols and the terminator, and the loop reads them back one by one. -/
theorem encodedStreamDecodes : Obligations.EncodedStreamDecodes := by
  intro s l p h _ hn he hle hlen hb
  have hloop := decodeSymbols_emitAll (l ++ [0#7]) h hn he hle hlen hb
  rwa [List.length_append, List.length_singleton] at hloop

end Sys2Proof.Machine
end

section
/-! SUPPORT. The host accesses in range (43_host_access.md rules R150 to R157), and the fields of the three values that pack
several: a node, a code and `STATUS` (10_state.md rules R24, R26, R30). -/
namespace Sys2Proof.Machine

/-! ## The fields of a packed value -/

/-- The field with `lo` below it, whatever stands above: it starts at the width of `lo`. -/
theorem extractLsb'_append_append {u v w : Nat} (hi : BitVec u) (x : BitVec v) (lo : BitVec w) :
    (hi ++ x ++ lo).extractLsb' w v = x := by
  rw [BitVec.extractLsb'_append_eq_of_le (Nat.le_refl w), Nat.sub_self, BitVec.extractLsb'_append_eq_right]

theorem nodeBits_weight (nd : Node) : (nodeBits nd).extractLsb 38 0 = nd.weight :=
  BitVec.extractLsb'_append_eq_right

theorem nodeBits_sym (nd : Node) : (nodeBits nd).extractLsb 45 39 = nd.sym :=
  extractLsb'_append_append _ nd.sym nd.weight

theorem nodeBits_leaf (nd : Node) : (nodeBits nd).getLsbD 46 = nd.leaf := by
  simp only [nodeBits, BitVec.getLsbD_append]
  simp

theorem nodeBits_left (nd : Node) : (nodeBits nd).extractLsb 54 47 = nd.left := by
  rw [nodeBits, BitVec.extractLsb, BitVec.extractLsb'_append_eq_of_le (by decide),
    BitVec.extractLsb'_append_eq_of_le (by decide)]
  exact extractLsb'_append_append nd.right nd.left (BitVec.ofBool nd.leaf)

theorem nodeBits_right (nd : Node) : (nodeBits nd).extractLsb 62 55 = nd.right := by
  rw [nodeBits, BitVec.extractLsb, BitVec.extractLsb'_append_eq_of_le (by decide),
    BitVec.extractLsb'_append_eq_of_le (by decide), BitVec.extractLsb'_append_eq_of_le (by decide)]
  exact BitVec.extractLsb'_append_eq_left

theorem codeBits_bits (c : Code) : (codeBits c).extractLsb 126 0 = c.bits :=
  BitVec.extractLsb'_append_eq_right

theorem codeBits_len (c : Code) : (codeBits c).extractLsb 133 127 = c.len :=
  extractLsb'_append_append _ c.len c.bits

theorem codeBits_valid (c : Code) : (codeBits c).getLsbD 134 = c.valid := by
  simp only [codeBits, BitVec.getLsbD_append]
  simp

theorem statusBits_code (st : Status) : (statusBits st).extractLsb 3 0 = resultNumber st.code :=
  BitVec.extractLsb'_append_eq_right

theorem statusBits_treeValid (st : Status) : (statusBits st).getLsbD 4 = st.treeValid := by
  simp only [statusBits, BitVec.getLsbD_append]
  simp

theorem statusBits_codesValid (st : Status) : (statusBits st).getLsbD 5 = st.codesValid := by
  simp only [statusBits, BitVec.getLsbD_append]
  simp

theorem statusBits_fault (st : Status) : (statusBits st).getLsbD 6 = st.fault := by
  simp only [statusBits, BitVec.getLsbD_append]
  simp

/-- Bit 7 of `STATUS` is hardwired 0 (10_state.md rule R30). -/
theorem statusBits_bit7 (st : Status) : (statusBits st).getLsbD 7 = false := by
  simp only [statusBits, BitVec.getLsbD_append]
  simp

/-! ## Accesses in range -/

theorem answerRead_of_eq_some {v : Option HostValue} {x : HostValue} (h : v = some x) (s : State) (sp : Space) (i : Nat) :
    answerRead s sp i v = .next (s.give x) := by
  rw [h, answerRead]

theorem perform_wrw_of_lt (s : State) {i : Nat} (v : Weight) (h : i < 128) :
    perform (.wrw i v) s = .next (s.setWeight i v) :=
  storeAt_of_lt (sp := .weight) h _

theorem perform_rdw_of_lt (s : State) {i : Nat} (h : i < 128) :
    perform (.rdw i) s = .next (s.give (.weight s.weight[i])) :=
  answerRead_of_eq_some (by simp [h]) s .weight i

theorem perform_rdn_of_lt (s : State) {i : Nat} (h : i < 255) :
    perform (.rdn i) s = .next (s.give (.node (nodeBits s.node[i]))) :=
  answerRead_of_eq_some (by simp [h]) s .node i

theorem perform_rdc_of_lt (s : State) {i : Nat} (h : i < 128) :
    perform (.rdc i) s = .next (s.give (.code (codeBits s.code[i]))) :=
  answerRead_of_eq_some (by simp [h]) s .code i

theorem perform_wrb_of_lt (s : State) {i : Nat} (b : Bool) (h : i < s.bits.length) :
    perform (.wrb i b) s = .next (s.setBit i b) :=
  storeAt_of_lt (sp := .bits) h _

theorem perform_rdb_of_lt (s : State) {i : Nat} (h : i < s.bits.length) :
    perform (.rdb i) s = .next (s.give (.bit s.bits[i])) :=
  answerRead_of_eq_some (by simp [h]) s .bits i

theorem perform_wrr_of_registerOf {i : Nat} {r : RegName} (h : registerOf i = some r) (s : State) (v : BitVec 16) :
    perform (.wrr i v) s = writeRegister s r v := by
  simp only [perform, h]

theorem perform_rdr_of_registerOf {i : Nat} {r : RegName} (h : registerOf i = some r) (s : State) :
    perform (.rdr i) s = .next (s.give (readRegister s r)) :=
  answerRead_of_eq_some (by rw [h, Option.map_some]) s .reg i

/-! ## The obligations of 43_host_access.md -/

/-- Settles O10: the store of the weight, by a read after it of the same and of another element. -/
theorem hostWritesWeight : Obligations.HostWritesWeight := fun s i v h =>
  ⟨s.setWeight i v, perform_wrw_of_lt s v h, setWeight_read_same s v h, fun _ hj => setWeight_read_other s v hj, rfl⟩

/-- Settles O11: the element is there. -/
theorem hostReadsWeight : Obligations.HostReadsWeight := fun s _ h => perform_rdw_of_lt s h

/-- Settles O12: the value read is the element packed, and each of its five fields comes back out. -/
theorem hostReadsNode : Obligations.HostReadsNode := fun s i h =>
  ⟨nodeBits s.node[i], perform_rdn_of_lt s h, nodeBits_weight _, nodeBits_sym _, nodeBits_leaf _, nodeBits_left _,
    nodeBits_right _⟩

/-- Settles O13: the value read is the element packed, and each of its three fields comes back out. -/
theorem hostReadsCode : Obligations.HostReadsCode := fun s i h =>
  ⟨codeBits s.code[i], perform_rdc_of_lt s h, codeBits_bits _, codeBits_len _, codeBits_valid _⟩

/-- Settles O14: the store of the bit, by a read after it of the same and of another element. -/
theorem hostWritesBit : Obligations.HostWritesBit := fun s i b h =>
  ⟨s.setBit i b, perform_wrb_of_lt s b h, setBit_read_same s b h, fun _ hj => setBit_read_other s b hj,
    List.length_set, rfl⟩

/-- Settles O15: the element is there. -/
theorem hostReadsBit : Obligations.HostReadsBit := fun s _ h => perform_rdb_of_lt s h

/-- Settles O16: the three registers that take a write by their numbers, the others by `perform_wrr_readOnly`. -/
theorem hostWritesRegister : Obligations.HostWritesRegister :=
  ⟨fun s v => perform_wrr_of_registerOf (r := .cmd) rfl s v, fun s v => perform_wrr_of_registerOf (r := .bitpos) rfl s v,
    fun s v => perform_wrr_of_registerOf (r := .bitlen) rfl s v, fun s _ v h1 h5 => perform_wrr_readOnly s v h1 h5⟩

/-- Settles O17: the number names a register, whose value is returned; `STATUS` by its bits. -/
theorem hostReadsRegister : Obligations.HostReadsRegister := by
  intro s i hi
  obtain ⟨r, hr⟩ := Option.isSome_iff_exists.mp ((registerOf_isSome_iff i).mpr hi)
  refine ⟨readRegister s r, perform_rdr_of_registerOf hr s, ?cmd, ?status, ?root, ?nodeCount, ?decSymbol, ?decConsumed,
    ?bitpos, ?bitlen⟩ <;> rintro rfl <;> cases hr
  case status =>
    refine ⟨statusBits s.status, rfl, statusBits_bit7 _, statusBits_fault _, statusBits_codesValid _,
      statusBits_treeValid _, ?_⟩
    rw [statusBits_code]
    cases s.status.code <;> rfl
  all_goals rfl

end Sys2Proof.Machine
end

section
/-! SUPPORT. What refuses a word before its unit runs: the latch, an illegal word, no tree, and a window that is none
(60_exceptions.md rules R174 to R177, in the order of R180). -/
namespace Sys2Proof.Machine

/-- A write to `CMD` executes the word in the value's low 8 bits (43_host_access.md rule R156). -/
theorem perform_wrr_cmd (s : State) (v : BitVec 16) : perform (.wrr 0 v) s = execute (v.extractLsb 7 0) s :=
  perform_wrr_of_registerOf (r := .cmd) rfl s v

/-- A word that is none of the four is refused by name (30_encoding.md rule R84). -/
theorem exists_decode_error_of_notMem {w : CmdWord} (h : w ∉ [0x01#8, 0x05#8, 0x02#8, 0x03#8]) :
    ∃ e, decode w = .error e := by
  cases hw : decode w with
  | error e => exact ⟨e, rfl⟩
  | ok i =>
    obtain ⟨rfl, -⟩ | ⟨rfl, -⟩ | ⟨rfl, -⟩ | ⟨rfl, -⟩ := (eq_encode_iff w i).mp (decode_eq_ok_iff.mp hw)
    all_goals exact absurd (by decide) h

/-- A window out of order or past the capacity is none (42_decode.md rule R141). -/
theorem windowLegal_eq_false {s : State} (h : s.bitlen.toNat < s.bitpos.toNat ∨ s.bits.length < s.bitlen.toNat) :
    windowLegal s = false := by
  rw [← Bool.not_eq_true, windowLegal_iff]
  omega

/-- Settles O6: the latch comes before the word's legality and before every command. -/
theorem faultLatchRefusesEveryWord : Obligations.FaultLatchRefusesEveryWord :=
  ⟨fun s v h => (perform_wrr_cmd s v).trans (execute_latched h _), fun _ i h => exec_latched h i⟩

/-- Settles O7: such a word does not decode, so it is executed as an illegal one. -/
theorem illegalWordWritesOnlyTheCode : Obligations.IllegalWordWritesOnlyTheCode := by
  intro s v hf hv
  obtain ⟨e, he⟩ := exists_decode_error_of_notMem hv
  exact (perform_wrr_cmd s v).trans (execute_error_clear he hf)

/-- Settles O38: past the latch, the tree is the first thing that ASSIGN and DECODE ask for. -/
theorem noTreeIsRefused : Obligations.NoTreeIsRefused := by
  intro s hf hv
  constructor
  · exact (exec_assign_clear hf).trans (if_neg (Bool.eq_false_iff.mp hv))
  · rw [exec_decode_clear hf, decodeState_noTree hv]; rfl

/-- Settles O43: with a tree, DECODE tests the window before it reads a bit. -/
theorem decodeOfBadWindowIsRefused : Obligations.DecodeOfBadWindowIsRefused := by
  intro s hf hv hw
  rw [exec_decode_clear hf, decodeState_badWindow hv (windowLegal_eq_false hw)]; rfl

end Sys2Proof.Machine
end

section
/-! SUPPORT. The two flags that only reset clears, `FAULT` and `TREE_VALID`, under a command, an access and a step
(60_exceptions.md rule R182), and what reset leaves (70_reset_and_hazards.md rules R195, R196). -/
namespace Sys2Proof.Machine

/-! ## The flags that only reset clears -/

/-- `FAULT` and `TREE_VALID` are each set in `b` if they are in `a`. -/
def Status.KeptBy (a b : Status) : Prop :=
  (a.fault = true → b.fault = true) ∧ (a.treeValid = true → b.treeValid = true)

theorem Status.keptBy_of_eq {a b : Status} (hf : b.fault = a.fault) (hv : b.treeValid = a.treeValid) : a.KeptBy b :=
  ⟨hf.trans, hv.trans⟩

theorem Status.keptBy_refl (a : Status) : a.KeptBy a := keptBy_of_eq rfl rfl

theorem finish_keeps_flags (s : State) (c : ResultCode) : s.status.KeptBy (s.finish c).status :=
  Status.keptBy_of_eq rfl rfl

/-- Raising the fault sets the one flag and leaves the other (60_exceptions.md rule R181). -/
theorem raiseInvariant_keeps_flags (s : State) : s.status.KeptBy s.raiseInvariant.status := ⟨fun _ => rfl, id⟩

/-- BUILD sets `TREE_VALID` and does not write `FAULT` (40_build.md rule R100). -/
theorem buildState_keeps_flags (min : Bool) (s : State) : s.status.KeptBy (buildState min s).status :=
  ⟨id, fun _ => rfl⟩

/-- ASSIGN writes neither flag, but for the latch of its fault (41_assign.md rule R120). -/
theorem assignWalk_keeps_flags {s t : State} (h : assignWalk s = .next t) : s.status.KeptBy t.status := by
  obtain ⟨-, rfl⟩ | ⟨l, -, -, rfl⟩ := assignWalk_next h
  · exact raiseInvariant_keeps_flags ((s.setCodes emptyCodes).markCodes false)
  · exact Status.keptBy_of_eq rfl rfl

/-- DECODE writes neither flag, but for the latch of its fault (42_decode.md rule R140). -/
theorem decodeState_keeps_flags (s : State) : s.status.KeptBy (decodeState s).status := by
  obtain ⟨x, n, ⟨c, h⟩ | h⟩ := decodeState_cases s <;> rw [h]
  · exact finish_keeps_flags (s.setDecoded x n) c
  · exact raiseInvariant_keeps_flags (s.setDecoded x n)

theorem execute_keeps_flags {w : CmdWord} {s t : State} (h : execute w s = .next t) : s.status.KeptBy t.status := by
  obtain ⟨c, rfl⟩ | ⟨min, -, rfl⟩ | ⟨-, h⟩ | rfl := execute_cases h
  · exact finish_keeps_flags s c
  · exact buildState_keeps_flags min s
  · exact assignWalk_keeps_flags h
  · exact decodeState_keeps_flags s

/-- A host access writes `STATUS` only as a command (10_state.md rule R30; 20_memory.md rule R66). -/
theorem perform_keeps_flags {a : HostAction} {s t : State} (h : perform a s = .next t) : s.status.KeptBy t.status := by
  obtain ⟨i, v, -, -, rfl⟩ | ⟨i, b, -, -, rfl⟩ | ⟨v, -, rfl⟩ | ⟨v, -, rfl⟩ | ⟨x, rfl⟩ | rfl | ⟨v, -, h⟩ :=
    perform_next h
  case inr.inr.inr.inr.inr.inr => exact execute_keeps_flags h
  all_goals exact Status.keptBy_refl _

/-- Settles O52, by the cases of a step: an idle step changes nothing, and a host access keeps both flags. -/
theorem onlyResetClearsFaultAndTreeValid : Obligations.OnlyResetClearsFaultAndTreeValid := fun s t h hreset => by
  obtain ⟨-, rfl⟩ | ⟨rest, hi, -⟩ | ⟨a, rest, -, h⟩ := step_next h
  · exact Status.keptBy_refl _
  · exact absurd (congrArg List.head? hi) hreset
  · exact perform_keeps_flags (s := s.withInbox rest) h

/-! ## What reset leaves -/

/-- In range the table of absent codes holds the absent code (10_state.md rule R26). -/
theorem emptyCodes_getElem?_of_lt {i : Nat} (hi : i < 128) : emptyCodes[i]? = some Code.absent :=
  (emptyCodes_getElem? i).trans (if_pos hi)

theorem reset_bits_length : State.reset.bits.length = 1024 := elements_length Config.bitcap (Config.resetBit 0)

/-- Settles O50: the registers are the ones `State.atReset` writes, whatever the free contents are. -/
theorem resetValues : Obligations.ResetValues :=
  ⟨reset_bits_length, reset_bits_length ▸ by decide, rfl, rfl, rfl, rfl, rfl, rfl, rfl, rfl,
    fun _ => emptyCodes_getElem?_of_lt⟩

/-- Settles O51: the step is the platform's reset, which makes the registers and the codes anew and `BITS` at the length it
had. -/
theorem platformResetCompletes : Obligations.PlatformResetCompletes := fun s rest h =>
  have hstep : step s = .next (s.withInbox rest).platformReset := step_of_inbox_cons h
  ⟨_, hstep, rfl, rfl, rfl, rfl, rfl, rfl, rfl, fun _ => emptyCodes_getElem?_of_lt, step_bits_length hstep, rfl, rfl⟩

end Sys2Proof.Machine
end
